-- ==== Sys2Proof/Word.lean ====
section
/-! DEFINITION. Sys2Proof/Word.lean: the bit patterns of ASDS, and the widths among the parameters of
spec/00_scope.md rule R6, each a named constant that the types and the operations use. Integers and rationals of the spec
(`v`, `f`, `g`) are `Int` and `ℚ`, and no operation on them wraps. -/

namespace Sys2Proof

/-- `CMD_BITS`: width of the command byte (R6). -/
abbrev Config.cmdBits : Nat := 8

/-- `WORD_BITS`: bits of a reassembled word (R6). -/
abbrev Config.wordBits : Nat := 16

/-- `FS_BITS`: width of the range code (R6). -/
abbrev Config.fsBits : Nat := 2

/-- `FX_FORMAT`: bits of the fixed-point product (R6, R69). -/
abbrev Config.fxBits : Nat := 20

/-- `FX_FORMAT`: its fraction bits, Q4.15 (R6, R69). -/
abbrev Config.fxFracBits : Nat := 15

/-- `u8`: a byte of `RAW` (R11, R40). -/
abbrev Byte := BitVec 8

/-- `CMD`: the command byte (R60, R61). -/
abbrev CmdByte := BitVec Config.cmdBits

/-- `W16`: a reassembled word (R70). -/
abbrev Word16 := BitVec Config.wordBits

/-- `FX`: a fixed-point product (R69). -/
abbrev Fx20 := BitVec Config.fxBits

/-- `b32`: an IEEE-754 binary32 pattern (`OUT_FORMAT`; R6, R68). -/
abbrev B32 := BitVec 32

/-- A range code `c`, 0 to 3 (R65). -/
abbrev RangeCode := BitVec Config.fsBits

end Sys2Proof
end

