-- ==== Sys2Proof/Config.lean ====
section
/-! DEFINITION. Sys2Proof/Config.lean: the parameters of spec/00_scope.md rule R6, each a named constant or a field of
`Params`, and the free values (values the spec states nowhere and the block never meets). The widths of R6 are the named
constants of Word.lean. HANDSHAKE and SETTLE_DELAY are read by no rule of the block and are left out (log 12). -/

namespace Sys2Proof

/-- `N_AXES`: axes per sample, x, y, z in that order (R6). -/
abbrev Config.nAxes : Nat := 3

/-- `RAW_BYTES`: bytes per raw sample (R6). -/
abbrev Config.rawBytes : Nat := 6

/-- `V_MIN`, the low end of the scale law's domain, `min_in` (R6, R111). -/
abbrev Config.vMin : Int := -32768

/-- `V_MAX`, the high end of the scale law's domain, `max_in` (R6, R111). -/
abbrev Config.vMax : Int := 32767

/-- `FS_OFFSET`: bit offset of the range field in a control byte (R6) and of `FS` in `CMD` (R61). -/
abbrev Config.fsOffset : Nat := 4

/-- `SIG_BITS`: the value the spec takes for it, the width of `S12` (R6, R93). -/
abbrev Config.sigBits : Nat := 12

/-- The rounding mode of a binary32 operation: the one the spec fixes (R6, decision D8). -/
inductive RoundingMode where
  | /-- To nearest, a tie to the even significand (R117). -/ roundTiesToEven
  deriving DecidableEq, Repr

/-- `ROUNDING`: the rounding of each binary32 operation (R6). -/
abbrev Config.rounding : RoundingMode := .roundTiesToEven

/-- `SCALE_EVAL`: how the scale law is evaluated to binary32 (R6; decision D7 of spec/92_eei_decisions.md). -/
inductive ScaleEval where
  | /-- EVAL-A, every operation of the written formula rounded to binary32 (R115); the default. -/ b32Stepwise
  | /-- EVAL-B, one rounding of the exact law (R116). -/ exactRn
  deriving DecidableEq, Repr

/-- The OPEN parameters of the block (R6). They are fixed for a machine: no step changes them. -/
structure Params where
  /-- `FSR_RESET`: the value of `FSR` after reset (R26); every code is legal. -/
  fsrReset : RangeCode
  /-- `SCALE_EVAL` (R115, R116). -/
  scaleEval : ScaleEval
  /-- `SIG_BITS`: significant bits of a left-justified sample, 1 to 16, for the 12-bit view only (R93 to R95). -/
  sigBits : Nat
  deriving DecidableEq, Repr

/-- The defaults the spec names: `FSR_RESET` = 0, `SCALE_EVAL` = `b32_stepwise`, `SIG_BITS` = 12 (R6).
DESIGN CHOICE (log 5, log 6, log 7), unsafe for a claim that rests on them: statements range over all `Params`. -/
def Params.specDefault : Params := { fsrReset := 0#2, scaleEval := .b32Stepwise, sigBits := Config.sigBits }

/-- FREE VALUE (log 9): what `val` of R11 is on a subnormal, an infinity or a NaN. R68 gives no formula for them and
the block never produces one (R121). -/
opaque Config.valUnstated : B32 → ℚ

/-- FREE VALUE (log 9): what `RN32` answers outside binary32's normal range. R117 restricts it to that range and the
block never leaves it. -/
opaque Config.rn32Unstated : ℚ → B32

/-- FREE VALUE (log 19): the default data-rate code `power_on` writes. The document calls it a fixed constant and gives no value
(R178; spec/91_not_in_source.md N4). Context only. -/
opaque Config.powerOnCode : BitVec 4

end Sys2Proof
end

