-- ==== Sys2Proof/Syntax.lean ====
section
/-! DEFINITION. Sys2Proof/Syntax.lean: the block's input record, its three commands, and the assembler lines
(spec/30_encoding.md rules R60 to R64, R72, R73). -/

namespace Sys2Proof

/-- The axis index `a`: 0 for x, 1 for y, 2 for z (R11). -/
inductive Axis where
  | x | y | z
  deriving DecidableEq, Repr

/-- The number of an axis, below `N_AXES` (R11). -/
def axisIndex : Axis → Fin Config.nAxes
  | .x => 0
  | .y => 1
  | .z => 2

/-- `RAW`, the six bytes of one command beat: `b0` is `RAW[0]` (x low), `b1` x high, `b2` y low, `b3` y high, `b4` z low,
`b5` z high (spec/20_memory.md rule R40). -/
structure RawSample where
  b0 : Byte
  b1 : Byte
  b2 : Byte
  b3 : Byte
  b4 : Byte
  b5 : Byte
  deriving DecidableEq, Repr

/-- A command beat: the command byte and the raw sample that accompanies every beat (R60). -/
structure CommandBeat where
  cmd : CmdByte
  raw : RawSample
  deriving DecidableEq, Repr

/-- The commands, one constructor per row of spec/opcode_table.json. Every field has exactly the values the encoding
admits, so every term is a well-formed command. -/
inductive Instr where
  | /-- NOP: report `FSR` (R140). -/ nop
  | /-- SETFS `c`, failure bit `xerr` (R141). -/ setfs (c : RangeCode) (xerr : Bool)
  | /-- DECODE with failure bit `xerr` and the raw sample (R142). -/ decode (xerr : Bool) (raw : RawSample)
  deriving DecidableEq, Repr

/-- An assembler line as it is written, operands unchecked: the syntax of R72 and the pseudo-commands of R73. -/
inductive AsmLine where
  | /-- `NOP` -/ nop
  | /-- `SETFS c` and `SETFS c, fail` -/ setfs (c : Nat) (fail : Bool)
  | /-- `DECODE b0 b1 b2 b3 b4 b5` -/ decode (bytes : List Nat)
  | /-- `DECODE fail` -/ decodeFail
  | /-- `.beat cc b0 b1 b2 b3 b4 b5` -/ beat (cc : Nat) (bytes : List Nat)
  | /-- `SETFS.G g` and `SETFS.G g, fail` -/ setfsG (g : Nat) (fail : Bool)
  | /-- `DECODEW x, y, z` -/ decodew (x y z : Int)
  deriving DecidableEq, Repr

end Sys2Proof
end

