-- ==== Sys2Proof/WellFormed.lean ====
section
/-! DEFINITION. Sys2Proof/WellFormed.lean: the checks. A command (`Instr`) carries its bounds in its types and needs none.
What can be ill formed is a command beat (its byte may be reserved), an assembler line (its operands may be out of range) and
a choice of parameters. -/

namespace Sys2Proof

/-- The eleven legal command bytes, as R62 lists them (column "byte values"). -/
def legalCmds : List CmdByte :=
  [0x00#8, 0x40#8, 0x41#8, 0x50#8, 0x51#8, 0x60#8, 0x61#8, 0x70#8, 0x71#8, 0x80#8, 0x81#8]

/-- A beat is well formed when its command byte is legal; any six bytes will do (R62, R63). -/
def CommandBeat.wf (b : CommandBeat) : Bool := legalCmds.contains b.cmd

/-- A numeral that denotes a byte. -/
def isByte (n : Nat) : Bool := n < 256

/-- Six numerals, each a byte (R72). -/
def isRaw (bytes : List Nat) : Bool := bytes.length == Config.rawBytes && bytes.all isByte

/-- An integer of the domain of `tc_16` (R73). -/
def isSample (v : Int) : Bool := Config.vMin ≤ v && v ≤ Config.vMax

/-- The operand checks of R72 and R73. A `.beat` line may hold an illegal command byte: it exists to write those. -/
def AsmLine.wf : AsmLine → Bool
  | .nop => true
  | .setfs c _ => c < 4
  | .decode bytes => isRaw bytes
  | .decodeFail => true
  | .beat cc bytes => isByte cc && isRaw bytes
  | .setfsG g _ => [2, 4, 8, 16].contains g
  | .decodew x y z => isSample x && isSample y && isSample z

/-- `SIG_BITS` is 1 to `WORD_BITS` (spec/92_eei_decisions.md, notes on the parameters); the other parameters are right by type. -/
def Params.wf (p : Params) : Bool := 1 ≤ p.sigBits && p.sigBits ≤ Config.wordBits

end Sys2Proof
end

