-- ==== Sys2Proof/Decode.lean ====
section
/-! DEFINITION. Sys2Proof/Decode.lean: from command beats to commands and back (spec/30_encoding.md rules R60 to R64,
R71 to R74). -/

namespace Sys2Proof

/-- A row of the opcode map: a decoder compares `CMD & mask` with `match` (R62). -/
structure OpcodeRow where
  mnemonic : String
  mask : CmdByte
  pattern : CmdByte

/-- The rows of R62. -/
def rowNop : OpcodeRow := { mnemonic := "NOP", mask := 0xFF#8, pattern := 0x00#8 }
def rowSetfs : OpcodeRow := { mnemonic := "SETFS", mask := 0xCE#8, pattern := 0x40#8 }
def rowDecode : OpcodeRow := { mnemonic := "DECODE", mask := 0xFE#8, pattern := 0x80#8 }

/-- The opcode map as one table. -/
def opcodeRows : List OpcodeRow := [rowNop, rowSetfs, rowDecode]

/-- `CMD & mask = match` (R62). -/
def rowHits (r : OpcodeRow) (cmd : CmdByte) : Bool := cmd &&& r.mask == r.pattern

/-- `OP`, bits 7:6 of `CMD` (R61). -/
def cmdOp (cmd : CmdByte) : BitVec 2 := cmd.extractLsb' 6 2

/-- `FS`, bits 5:4 of `CMD` (R61), the range code operand `zext_2(CMD[5:4])` (R64). -/
def cmdFs (cmd : CmdByte) : RangeCode := cmd.extractLsb' Config.fsOffset Config.fsBits

/-- `RSV`, bits 3:1 of `CMD` (R61). -/
def cmdRsv (cmd : CmdByte) : BitVec 3 := cmd.extractLsb' 1 3

/-- `XERR`, bit 0 of `CMD` (R61). -/
def cmdXerr (cmd : CmdByte) : Bool := cmd.getLsbD 0

/-- Why a beat is no command, by the causes of R63. The names are the model's own: the block answers every one of them
with `IllegalCommand` and echoes nothing (R202; log 15). -/
inductive DecodeReject where
  | /-- `OP` = 0b11 (0xC0 to 0xFF). -/ reservedOp
  | /-- `OP` = 0b00 but not 0x00 (0x01 to 0x3F). -/ nopFieldsNonzero
  | /-- `OP` = 0b01 with `RSV` ≠ 0. -/ setfsReservedNonzero
  | /-- `OP` = 0b10 but not 0x80 or 0x81. -/ decodeFieldsNonzero
  | /-- Not seven bytes, so no beat at all (R60, R74); only `decodeBytes` answers it. -/ notABeat
  deriving DecidableEq, Repr

/-- The cause for which an illegal command byte is illegal (R63). -/
def rejectCause (cmd : CmdByte) : DecodeReject :=
  if cmdOp cmd = 0b11#2 then .reservedOp
  else if cmdOp cmd = 0b00#2 then .nopFieldsNonzero
  else if cmdOp cmd = 0b01#2 then .setfsReservedNonzero
  else .decodeFieldsNonzero

/-- The decoder: total on all 256 command bytes, legal or illegal, never undefined (R62, R63). `RAW` is looked at by DECODE
alone (R147). -/
def decodeBeat (b : CommandBeat) : Except DecodeReject Instr :=
  if rowHits rowNop b.cmd then .ok .nop
  else if rowHits rowSetfs b.cmd then .ok (.setfs (cmdFs b.cmd) (cmdXerr b.cmd))
  else if rowHits rowDecode b.cmd then .ok (.decode (cmdXerr b.cmd) b.raw)
  else .error (rejectCause b.cmd)

/-- A beat as R71 prints it: `CMD` first, then `RAW[0]` to `RAW[5]`. -/
def beatBytes (b : CommandBeat) : List Byte :=
  [b.cmd, b.raw.b0, b.raw.b1, b.raw.b2, b.raw.b3, b.raw.b4, b.raw.b5]

/-- The decoder on any list of bytes: a beat is exactly seven of them (R60, R74). -/
def decodeBytes : List Byte → Except DecodeReject Instr
  | [c, b0, b1, b2, b3, b4, b5] => decodeBeat { cmd := c, raw := { b0, b1, b2, b3, b4, b5 } }
  | _ => .error .notABeat

/-- Byte `k` of a number, byte 0 the least significant. -/
def numByte (w k : Nat) : Byte := BitVec.ofNat 8 (w >>> (8 * k))

/-- The beat whose bytes, in the order of R71, are the low `nbits` bits of `w` from the least significant byte on, zeros
above (log 11). -/
def beatOfWord (nbits w : Nat) : CommandBeat :=
  let u := w % 2 ^ nbits
  { cmd := numByte u 0
    raw := { b0 := numByte u 1, b1 := numByte u 2, b2 := numByte u 3, b3 := numByte u 4, b4 := numByte u 5, b5 := numByte u 6 } }

/-- What the decoder reads from a row's word (the host's numbering of bits; log 11). -/
def decodeTableWord (nbits w : Nat) : Option Instr :=
  match decodeBeat (beatOfWord nbits w) with
  | .ok i => some i
  | .error _ => none

/-! ### The encoder and the assembler -/

/-- Six zero bytes, as R72 prints an ignored `RAW`. -/
def zeroRaw : RawSample := { b0 := 0#8, b1 := 0#8, b2 := 0#8, b3 := 0#8, b4 := 0#8, b5 := 0#8 }

/-- `CMD` from its fields, `RSV` zero (R61). -/
def packCmd (op : BitVec 2) (fs : RangeCode) (xerr : Bool) : CmdByte := op ++ fs ++ 0#3 ++ BitVec.ofBool xerr

/-- The beat of a command (R62; an ignored `RAW` is printed as zeros, R72). -/
def encode : Instr → CommandBeat
  | .nop => { cmd := packCmd 0b00#2 0#2 false, raw := zeroRaw }
  | .setfs c xerr => { cmd := packCmd 0b01#2 c xerr, raw := zeroRaw }
  | .decode xerr raw => { cmd := packCmd 0b10#2 0#2 xerr, raw }

/-- Six numerals as the raw sample of a beat. -/
def rawOfNats : List Nat → RawSample
  | [b0, b1, b2, b3, b4, b5] =>
    { b0 := BitVec.ofNat 8 b0, b1 := BitVec.ofNat 8 b1, b2 := BitVec.ofNat 8 b2
      b3 := BitVec.ofNat 8 b3, b4 := BitVec.ofNat 8 b4, b5 := BitVec.ofNat 8 b5 }
  | _ => zeroRaw

/-- `tc_16(w)[7:0]` (R73). -/
def sampleLow (v : Int) : Byte := (BitVec.ofInt Config.wordBits v).extractLsb' 0 8

/-- `tc_16(w)[15:8]` (R73). -/
def sampleHigh (v : Int) : Byte := (BitVec.ofInt Config.wordBits v).extractLsb' 8 8

/-- The raw sample of three words, low byte first on each axis (R73). -/
def rawOfWords (x y z : Int) : RawSample :=
  { b0 := sampleLow x, b1 := sampleHigh x, b2 := sampleLow y, b3 := sampleHigh y, b4 := sampleLow z, b5 := sampleHigh z }

/-- The beat a line denotes (R72, R73), for a line that passes `AsmLine.wf`. -/
def assembleLine : AsmLine → CommandBeat
  | .nop => encode .nop
  | .setfs c fail => encode (.setfs (BitVec.ofNat Config.fsBits c) fail)
  | .decode bytes => encode (.decode false (rawOfNats bytes))
  | .decodeFail => encode (.decode true zeroRaw)
  | .beat cc bytes => { cmd := BitVec.ofNat 8 cc, raw := rawOfNats bytes }
  | .setfsG g fail => encode (.setfs (BitVec.ofNat Config.fsBits (g.log2 - 1)) fail)
  | .decodew x y z => encode (.decode false (rawOfWords x y z))

/-- The assembler: a line whose operands are out of range denotes no beat (R72, R73). -/
def assemble (l : AsmLine) : Option CommandBeat :=
  if l.wf then some (assembleLine l) else none

end Sys2Proof
end

