-- ==== Sys2Proof/Machine/State.lean ====
section
/-! DEFINITION. Sys2Proof/Machine/State.lean: the state of the block, its response beats, and how a step can stop
(spec/10_state.md; spec/30_encoding.md rule R66; spec/60_exceptions.md rule R200). -/

namespace Sys2Proof.Machine

/-- `STATUS` of a response beat; code 3 is never produced, so there are three values (R200). -/
inductive Status where
  | ok | busError | illegalCommand
  deriving DecidableEq, Repr

/-- What `raise` can name (spec/00_scope.md R12): the two errors of the block (R201, R202). -/
inductive ErrorCause where
  | busError | illegalCommand
  deriving DecidableEq, Repr

/-- The three data fields of one axis `a`: `W16_a`, `FX_a`, `F32_a` (R66). -/
structure LaneData where
  w16 : Word16
  fx : Fx20
  f32 : B32
  deriving DecidableEq, Repr

/-- The nine data fields of a response, by axis (R66, R124). -/
structure DecodeData where
  x : LaneData
  y : LaneData
  z : LaneData
  deriving DecidableEq, Repr

/-- A response beat (R66). The data fields are all present or have no value at all. -/
structure ResponseBeat where
  /-- `STATUS`. -/
  status : Status
  /-- `FS_Q`: the value of `FSR` after the command. -/
  fsQ : RangeCode
  /-- The nine data fields, present only for a DECODE whose status is `OK`. -/
  data : Option DecodeData
  deriving DecidableEq, Repr

/-- What the host can do to the block: present a command beat (R60), or reset it between commands
(spec/70_reset_and_hazards.md rules R230, R232). -/
inductive HostEvent where
  | beat (b : CommandBeat)
  | reset
  deriving DecidableEq, Repr

/-- The block and its boundary. `fsr` is all the state the spec gives the block (R20, R9). The other fields are the model's
own, because the host's `step` has one argument: the parameters, which no step changes (log 4); the input of the spec's
`step` (log 1); and its output (log 2). -/
structure State where
  /-- `FSR`, the stored full-scale selection (R20). -/
  fsr : RangeCode
  /-- The OPEN parameters (spec/00_scope.md R6). -/
  params : Params
  /-- The host's events not yet taken, oldest first. -/
  pending : List HostEvent
  /-- The response beats produced, oldest first (R146). No step reads it. -/
  responses : List ResponseBeat
  deriving DecidableEq, Repr

/-- Why the machine stops. -/
inductive Fault where
  /-- Raised by `step` alone, when the host has presented nothing: a run is over when its list is exhausted (R146).
  DESIGN CHOICE (log 3), safe: the block waits unchanged and the model stops. -/
  | noCommandBeat
  deriving DecidableEq, Repr

/-- Why an instruction has no meaning. -/
inductive Refusal where
  /-- Raised by an arm of `exec` for an instruction without a meaning; safe. No arm of this model raises it. -/
  | notModelled (mnemonic : String)
  deriving DecidableEq, Repr

/-- The block right after reset under given parameters: `FSR <- FSR_RESET`, and there is nothing else to initialise
(R26, R230); no event presented, no response given (log 1, log 2). -/
def State.resetWith (p : Params) : State := { fsr := p.fsrReset, params := p, pending := [], responses := [] }

/-- The block right after reset under the spec's default parameters (R6; log 4, log 5). -/
def State.reset : State := State.resetWith Params.specDefault

end Sys2Proof.Machine
end

