-- ==== Sys2Proof/Machine/Flags.lean ====
section
/-! DEFINITION. Sys2Proof/Machine/Flags.lean: the block has no flags or condition codes (spec/10_state.md rule R23). What a
command reports is its status, an output of that one command; here are the statuses and their codes (spec/60_exceptions.md
rule R200). -/

namespace Sys2Proof.Machine

/-- The numeric code of a status (R200). -/
def statusCode : Status → BitVec 2
  | .ok => 0#2
  | .busError => 1#2
  | .illegalCommand => 2#2

/-- The status a raised error is reported with (R12, R201, R202). -/
def errorStatus : ErrorCause → Status
  | .busError => .busError
  | .illegalCommand => .illegalCommand

end Sys2Proof.Machine
end

