-- ==== Sys2Proof/Machine/Ops.lean ====
section
/-! DEFINITION. Sys2Proof/Machine/Ops.lean: the named operations over the block's state and boundary
(spec/00_scope.md rule R12): `FSR`, `FSR <- c`, `MemRead`, `respond`, `raise`, taking the host's next event, and reset. -/

namespace Sys2Proof.Machine

/-- `FSR`: read of the state register (R12). -/
def readFsr (s : State) : RangeCode := s.fsr

/-- `FSR <- c`: write of the state register (R12). -/
def writeFsr (c : RangeCode) (s : State) : State := { s with fsr := c }

/-- `respond(status, fs, data)` with `fs` the value of `FSR` after the command (R12, R66): one more response beat. -/
def respond (status : Status) (data : Option DecodeData) (s : State) : State :=
  { s with responses := s.responses ++ [{ status, fsQ := s.fsr, data }] }

/-- `raise`: THE shared operation for both errors. It ends the command with no state change and no data; the response carries
the status, and the next command is taken as usual. Nothing is saved, masked or redirected (R12, R206, R207). -/
def raiseError (e : ErrorCause) (s : State) : Host.Outcome State Fault Refusal :=
  .next (respond (errorStatus e) none s)

/-- The reset event: `FSR <- FSR_RESET` and nothing else; no response beat (R230). -/
def resetBlock (s : State) : State := writeFsr s.params.fsrReset s

/-- The host's next event and the state without it; `none` when nothing is presented. Events are taken in the order
presented (R143). -/
def takeEvent (s : State) : Option (HostEvent × State) :=
  match s.pending with
  | [] => none
  | e :: rest => some (e, { s with pending := rest })

/-- The host presents an event that the block takes next. -/
def presentNext (e : HostEvent) (s : State) : State := { s with pending := e :: s.pending }

/-- The host presents further events, after those already waiting. -/
def present (es : List HostEvent) (s : State) : State := { s with pending := s.pending ++ es }

/-- `RAW[0] .. RAW[5]` in increasing index (R40). -/
def rawList (raw : RawSample) : List Byte := [raw.b0, raw.b1, raw.b2, raw.b3, raw.b4, raw.b5]

/-- `MemRead(k, n)`: the bytes `RAW[k] .. RAW[k+n-1]`; there is no byte outside the indices 0 to 5 (R12, R40). -/
def memRead (raw : RawSample) (k n : Nat) : Option (List Byte) :=
  if k + n ≤ Config.rawBytes then some (((rawList raw).drop k).take n) else none

end Sys2Proof.Machine
end

