-- ==== Sys2Proof/Machine/Operands.lean ====
section
/-! DEFINITION. Sys2Proof/Machine/Operands.lean: the operand forms of DECODE and the unpack stages
(spec/30_encoding.md rule R64; spec/40_unpack.md rules R90 to R95). Each is total and reads no state. -/

namespace Sys2Proof.Machine

/-- The low byte of axis `a`, `RAW[2a]` (R40). -/
def axisLow (raw : RawSample) (a : Axis) : Byte :=
  (rawList raw)[2 * (axisIndex a).val]'(by have h : (axisIndex a).val < 3 := (axisIndex a).isLt; simp only [rawList, List.length_cons, List.length_nil]; omega)

/-- The high byte of axis `a`, `RAW[2a+1]` (R40). -/
def axisHigh (raw : RawSample) (a : Axis) : Byte :=
  (rawList raw)[2 * (axisIndex a).val + 1]'(by have h : (axisIndex a).val < 3 := (axisIndex a).isLt; simp only [rawList, List.length_cons, List.length_nil]; omega)

/-- UNPACK: `(zext_8(hi) << 8) | zext_8(lo)`, formed at `WORD_BITS` bits (R90). -/
def unpack (lo hi : Byte) : Word16 := (hi.setWidth Config.wordBits <<< 8) ||| lo.setWidth Config.wordBits

/-- SEXT: the integer a word denotes in two's complement, `sext_16(w)` (R91). -/
def sext16 (w : Word16) : Int := w.toInt

/-- `tc_N(v)`: the `N`-bit two's-complement pattern of `v` (R11). -/
def tcN (n : Nat) (v : Int) : BitVec n := BitVec.ofInt n v

/-- The word of axis `a`, `W16_a = {RAW[2a+1], RAW[2a]}` (R64). -/
def axisWord (raw : RawSample) (a : Axis) : Word16 := unpack (axisLow raw a) (axisHigh raw a)

/-- The 48-bit view of `RAW`, `{RAW[5], RAW[4], RAW[3], RAW[2], RAW[1], RAW[0]}` (R41). -/
def rawView48 (raw : RawSample) : BitVec 48 := raw.b5 ++ raw.b4 ++ raw.b3 ++ raw.b2 ++ raw.b1 ++ raw.b0

/-- The significant bits of a word when `n` of them are left-justified, `w[15:16-n]` (R95). -/
def sigView (n : Nat) (w : Word16) : BitVec n := w.extractLsb' (Config.wordBits - n) n

/-- The bits below the `n` significant ones, `w[15-n:0]` (R95). -/
def padView (n : Nat) (w : Word16) : BitVec (Config.wordBits - n) := w.extractLsb' 0 (Config.wordBits - n)

/-- S12: the upper twelve bits, `w[15:4]` (R93). -/
def s12 (w : Word16) : BitVec Config.sigBits := sigView Config.sigBits w

/-- PAD: the lower four bits, `w[3:0]` (R94). -/
def pad (w : Word16) : BitVec (Config.wordBits - Config.sigBits) := padView Config.sigBits w

/-- The sample a word shows under the parameter `SIG_BITS`: the integer its significant bits denote and the number its pad bits
hold (R95). A function of the response's `W16_a`; no result depends on it. -/
def sampleView (p : Params) (w : Word16) : Int × Nat := ((sigView p.sigBits w).toInt, (padView p.sigBits w).toNat)

end Sys2Proof.Machine
end

