-- ==== Sys2Proof/Machine/Binary32.lean ====
section
/-! DEFINITION. Sys2Proof/Machine/Binary32.lean: IEEE-754 binary32 as far as the block needs it: `val` and `RN32` on exact
rationals and the four operations (spec/00_scope.md rule R11; spec/30_encoding.md rule R68; spec/41_scale.md rule R117).
The layout and the rounding are the spec's own, which marks them as general knowledge (log 10). -/

namespace Sys2Proof.Machine

/-- The sign bit `p[31]` (R68). -/
def b32Sign (p : B32) : Bool := p.getLsbD 31

/-- The biased exponent `E = p[30:23]` (R68). -/
def b32Exp (p : B32) : Nat := (p.extractLsb' 23 8).toNat

/-- The fraction `F = p[22:0]` (R68). -/
def b32Frac (p : B32) : Nat := (p.extractLsb' 0 23).toNat

/-- A normal number: `1 <= E <= 254` (R68). -/
def b32Normal (p : B32) : Bool := 1 ≤ b32Exp p && b32Exp p ≤ 254

/-- `2^e` for any integer `e`. -/
def pow2 (e : Int) : ℚ := if 0 ≤ e then ((2 ^ e.toNat : Nat) : ℚ) else 1 / ((2 ^ (-e).toNat : Nat) : ℚ)

/-- `val(p)`: the real number a pattern denotes (R11, R68); free for a subnormal, an infinity and a NaN (log 9). -/
def val (p : B32) : ℚ :=
  if b32Normal p then
    (if b32Sign p then -1 else 1) * pow2 ((b32Exp p : Int) - 127) * (1 + (b32Frac p : ℚ) / 8388608)
  else if b32Exp p = 0 ∧ b32Frac p = 0 then 0
  else Config.valUnstated p

/-- A pattern from sign, biased exponent and fraction: `(s << 31) | (E << 23) | F` (R117). -/
def packB32 (s : Bool) (e f : Nat) : B32 := BitVec.ofBool s ++ BitVec.ofNat 8 e ++ BitVec.ofNat 23 f

/-- Is `2^k <= num / den`? -/
def pow2LeRatio (num den : Nat) (k : Int) : Bool :=
  if 0 ≤ k then den * 2 ^ k.toNat ≤ num else den ≤ num * 2 ^ (-k).toNat

/-- The integer `e` with `2^e <= num / den < 2^(e+1)`, for `num` and `den` positive (R117). -/
def floorLog2 (num den : Nat) : Int :=
  let k : Int := (num.log2 : Int) - (den.log2 : Int)
  if pow2LeRatio num den k then k else k - 1

/-- `num / den` divided by `2^k`, as a numerator and a denominator. -/
def divPow2 (num den : Nat) (k : Int) : Nat × Nat :=
  if 0 ≤ k then (num, den * 2 ^ k.toNat) else (num * 2 ^ (-k).toNat, den)

/-- Does a tie between `n` and `n + 1` go up? (R117) -/
def tieGoesUp (mode : RoundingMode) (n : Nat) : Bool :=
  match mode with
  | .roundTiesToEven => n % 2 = 1

/-- `num / den` rounded to an integer, to nearest, a tie as `ROUNDING` says: to the even one (R6, R117). -/
def roundHalfEven (num den : Nat) : Nat :=
  let n := num / den
  let r := num % den
  if 2 * r > den ∨ (2 * r = den ∧ tieGoesUp Config.rounding n = true) then n + 1 else n

/-- The rounded significand and the exponent of `num / den`, after the carry: `(n'', e')` (R117). -/
def roundedSig (num den : Nat) : Nat × Int :=
  let e := floorLog2 num den
  let m := divPow2 num den (e - 23)
  let n := roundHalfEven m.1 m.2
  if n = 2 ^ 24 then (2 ^ 23, e + 1) else (n, e)

/-- `RN32(x)`: the binary32 value nearest the rational `x`, ties to even (R11, R117); free outside the normal range
(log 9). -/
def rn32 (x : ℚ) : B32 :=
  if x = 0 then 0#32
  else
    let r := roundedSig x.num.natAbs x.den
    if -126 ≤ r.2 ∧ r.2 ≤ 127 then packB32 (decide (x < 0)) (r.2 + 127).toNat (r.1 - 2 ^ 23)
    else Config.rn32Unstated x

/-- `b32_of_int(i)` (R11). -/
def b32OfInt (i : Int) : B32 := rn32 (i : ℚ)

/-- The IEEE-754 operations: the exact result on `val` of the operands, then `RN32` (R11). -/
def b32Add (a b : B32) : B32 := rn32 (val a + val b)
def b32Sub (a b : B32) : B32 := rn32 (val a - val b)
def b32Mul (a b : B32) : B32 := rn32 (val a * val b)
def b32Div (a b : B32) : B32 := rn32 (val a / val b)

end Sys2Proof.Machine
end

