-- ==== Sys2Proof/Machine/Scale.lean ====
section
/-! DEFINITION. Sys2Proof/Machine/Scale.lean: the scale stages RANGE, FXMUL and SCALE (spec/41_scale.md rules R110 to R116).
`v` is the signed integer of a word (R91), `c` the range code. Each is total and reads no state. -/

namespace Sys2Proof.Machine

/-- `R(c) = 2^(c+1)` g: 2, 4, 8, 16 (R110). -/
def rangeG (c : RangeCode) : Int := 2 ^ (c.toNat + 1)

/-- `min_out(c) = -R(c)` (R110). -/
def minOut (c : RangeCode) : Int := -rangeG c

/-- `max_out(c) = +R(c)` (R110). -/
def maxOut (c : RangeCode) : Int := rangeG c

/-- The scale law as an exact real function, in the written form of R111:
`f(v, c) = min_out + (v - min_in) * (max_out - min_out) / (max_in - min_in)`. -/
def law (v : Int) (c : RangeCode) : ℚ :=
  (minOut c : ℚ) + ((v : ℚ) - Config.vMin) * ((maxOut c : ℚ) - minOut c) / ((Config.vMax : ℚ) - Config.vMin)

/-- FXMUL: the exact integer product of the sample and the FSR constant (R113). -/
def fxmul (v : Int) (c : RangeCode) : Int := v * rangeG c

/-- `FX = tc_20(FXMUL(v, c))` (R113). -/
def fxPattern (v : Int) (c : RangeCode) : Fx20 := tcN Config.fxBits (fxmul v c)

/-- What a Q4.15 pattern denotes in g, `sext_20(FX) / 32768` (R69). -/
def fxValue (p : Fx20) : ℚ := (p.toInt : ℚ) / (2 ^ Config.fxFracBits : Nat)

/-- The ideal ratio `g(v, c) = v * R(c) / 32768` (R113, R114). -/
def ratioG (v : Int) (c : RangeCode) : ℚ := (v : ℚ) * rangeG c / (2 ^ Config.fxFracBits : Nat)

/-- SCALE, evaluation EVAL-A: every operand converted to binary32, every operation of the written formula rounded, `*` and
`/` before `+`, left to right (R115). -/
def scaleA (v : Int) (c : RangeCode) : B32 :=
  let value := b32OfInt v
  let minIn := b32OfInt Config.vMin
  let maxIn := b32OfInt Config.vMax
  let minO := b32OfInt (minOut c)
  let maxO := b32OfInt (maxOut c)
  let d1 := b32Sub value minIn
  let d2 := b32Sub maxO minO
  let p := b32Mul d1 d2
  let d3 := b32Sub maxIn minIn
  let q := b32Div p d3
  b32Add minO q

/-- SCALE, evaluation EVAL-B: `RN32(2^(c+1) * (2*v + 1) / 65535)`, one rounding (R116). -/
def scaleB (v : Int) (c : RangeCode) : B32 := rn32 ((rangeG c : ℚ) * (2 * v + 1) / ((Config.vMax : ℚ) - Config.vMin))

/-- SCALE under the parameter `SCALE_EVAL` (R6, R115, R116). -/
def scale (ev : ScaleEval) (v : Int) (c : RangeCode) : B32 :=
  match ev with
  | .b32Stepwise => scaleA v c
  | .exactRn => scaleB v c

end Sys2Proof.Machine
end

