-- ==== Sys2Proof/Machine/Sample.lean ====
section
/-! DEFINITION. Sys2Proof/Machine/Sample.lean: the meaning of DECODE and its lanes (spec/42_commands.md rule R142;
spec/41_scale.md rule R124). -/

namespace Sys2Proof.Machine

/-- One lane: UNPACK, SEXT, FXMUL and SCALE on one word (R124, R142). -/
def laneOf (ev : ScaleEval) (c : RangeCode) (w : Word16) : LaneData :=
  { w16 := w, fx := fxPattern (sext16 w) c, f32 := scale ev (sext16 w) c }

/-- The three lanes of a raw sample under one range code; none reads another's bytes (R124). -/
def decodeLanes (ev : ScaleEval) (c : RangeCode) (raw : RawSample) : DecodeData :=
  { x := laneOf ev c (axisWord raw .x), y := laneOf ev c (axisWord raw .y), z := laneOf ev c (axisWord raw .z) }

/-- DECODE `xerr`: three accelerations scaled by `FSR`, all or none; `FSR` is never changed (R142). -/
def execDecode (xerr : Bool) (raw : RawSample) (s : State) : Host.Outcome State Fault Refusal :=
  if xerr then raiseError .busError s
  else .next (respond .ok (some (decodeLanes s.params.scaleEval (readFsr s) raw)) s)

end Sys2Proof.Machine
end

