-- ==== Sys2Proof/Machine/Selection.lean ====
section
/-! DEFINITION. Sys2Proof/Machine/Selection.lean: the meanings of the commands about the stored selection, NOP and SETFS
(spec/42_commands.md rules R140, R141). -/

namespace Sys2Proof.Machine

/-- NOP: do nothing, report `FSR` (R140). -/
def execNop (s : State) : Host.Outcome State Fault Refusal := .next (respond .ok none s)

/-- SETFS `c`, `xerr`: commit the stored selection on success only; a failed commit raises `BusError` and leaves `FSR` (R141). -/
def execSetfs (c : RangeCode) (xerr : Bool) (s : State) : Host.Outcome State Fault Refusal :=
  if xerr then raiseError .busError s
  else .next (respond .ok none (writeFsr c s))

end Sys2Proof.Machine
end

