-- ==== Sys2Proof/Machine/Dispatch.lean ====
section
/-! DEFINITION. Sys2Proof/Machine/Dispatch.lean: one arm per command, each a direct call of its meaning. -/

namespace Sys2Proof.Machine

def exec (i : Instr) (s : State) : Host.Outcome State Fault Refusal :=
  match i with
  | .nop => Sys2Proof.Machine.execNop s
  | .setfs c xerr => Sys2Proof.Machine.execSetfs c xerr s
  | .decode xerr raw => Sys2Proof.Machine.execDecode xerr raw s

end Sys2Proof.Machine
end

