-- ==== Sys2Proof/Machine/Step.lean ====
section
/-! DEFINITION. Sys2Proof/Machine/Step.lean: one step of the block, `step : State -> CommandBeat -> State x ResponseBeat` of
spec/00_scope.md rule R7 with its input taken from `pending` and its output added to `responses` (log 1, log 2). -/

namespace Sys2Proof.Machine

/-- One step takes the host's oldest event: a reset (R230), a legal beat, which is performed whole (R143), or an illegal one,
which raises `IllegalCommand` before `XERR` is looked at (R63, R202, R205). With nothing presented the run is over
(R146; log 3). -/
def step (s : State) : Host.Outcome State Fault Refusal :=
  match takeEvent s with
  | none => .fault .noCommandBeat
  | some (.reset, t) => .next (resetBlock t)
  | some (.beat b, t) =>
    match decodeBeat b with
    | .ok i => exec i t
    | .error _ => raiseError .illegalCommand t

/-- `s` with the beat of a table word presented as the host's next event (log 1, log 11). -/
def State.withFetchWord (s : State) (nbits w : Nat) : State := presentNext (.beat (beatOfWord nbits w)) s

end Sys2Proof.Machine
end

