-- ==== Sys2Proof/Machine/Driver.lean ====
section
/-! DEFINITION. Sys2Proof/Machine/Driver.lean: context, outside the block's step (spec/43_driver_context.md rule R170): the
surrounding driver's pure field function and the events its operations present to the block (spec/42_commands.md rule R145). -/

namespace Sys2Proof.Machine

/-- A register field descriptor without its address, which no source gives: bit offset and bit width in a byte (R172). -/
structure RegField where
  offset : Nat
  width : Nat
  deriving DecidableEq, Repr

/-- The data-rate field, the high four bits of its register (R173). -/
def dataRateField : RegField := { offset := 4, width := 4 }

/-- The full-scale field, bits 5:4 of another register (R65, R173). -/
def fullScaleField : RegField := { offset := Config.fsOffset, width := Config.fsBits }

/-- The mask of a field, `((1 << width) - 1) << offset` (R173). -/
def fieldMask (f : RegField) : Byte := BitVec.ofNat 8 ((2 ^ f.width - 1) * 2 ^ f.offset)

/-- `apply_field(byte, field, value)` (R173). A field outside the byte or a value that does not fit is refused, as R173
advises a model of the driver (log 13). -/
def applyField (byte : Byte) (f : RegField) (value : Nat) : Option Byte :=
  if f.offset + f.width ≤ 8 ∧ value < 2 ^ f.width then
    some ((byte &&& ~~~(fieldMask f)) ||| (BitVec.ofNat 8 (value * 2 ^ f.offset) &&& fieldMask f))
  else none

/-- The control byte `configure_full_scale` writes back (R177). -/
def fullScaleByte (old : Byte) (c : RangeCode) : Option Byte := applyField old fullScaleField c.toNat

/-- The control byte `configure_data_rates` writes back (R175). -/
def dataRateByte (old : Byte) (mode : BitVec 4) : Option Byte := applyField old dataRateField mode.toNat

/-- The control byte `power_off` writes back: the power-down code, all zero bits in the data-rate field (R178). -/
def powerOffByte (old : Byte) : Option Byte := dataRateByte old 0#4

/-- The control byte `power_on` writes back: the driver's default data-rate code, free (R178; log 19). -/
def powerOnByte (old : Byte) : Option Byte := dataRateByte old Config.powerOnCode

/-- The range code held in a control byte, `B[5:4]` (R65). -/
def rangeOfControl (b : Byte) : RangeCode := b.extractLsb' Config.fsOffset Config.fsBits

/-- The driver's operations (R184) with what the bus made of them: `ok` says that every transaction of the operation
succeeded (R182, R185). A successful read carries the six bytes in the order received (R180). -/
inductive DriverCall where
  | create
  | powerOn (ok : Bool)
  | powerOff (ok : Bool)
  | configureDataRates (mode : BitVec 4) (ok : Bool)
  | configureFullScale (c : RangeCode) (ok : Bool)
  | toggleFifo (enable : Bool) (ok : Bool)
  | configureFifoMode (ok : Bool)
  | rebootMemoryContent (ok : Bool)
  | read (sample : Option RawSample)
  deriving DecidableEq, Repr

/-- What a driver operation presents to the block (R145): `read` a DECODE, `configure_full_scale` a SETFS, `create` the reset,
the others nothing (log 14). -/
def driverEvents : DriverCall → List HostEvent
  | .create => [.reset]
  | .configureFullScale c ok => [.beat (encode (.setfs c (!ok)))]
  | .read (some raw) => [.beat (encode (.decode false raw))]
  | .read none => [.beat (encode (.decode true zeroRaw))]
  | .powerOn _ => []
  | .powerOff _ => []
  | .configureDataRates _ _ => []
  | .toggleFifo _ _ => []
  | .configureFifoMode _ => []
  | .rebootMemoryContent _ => []

end Sys2Proof.Machine
end

