-- ==== Sys2Proof/Safety.lean ====
section
/-! DEFINITION. Sys2Proof/Safety.lean: the terms claims use: what a lawful response is, the invariant of the machine, the
spec's own step function read off its byte tables, and when the host may trust the scale. -/

namespace Sys2Proof.Safety

open Sys2Proof.Machine

/-! ### Lawful responses and the invariant -/

/-- The data fields of one axis stand to each other as the rules say: `FX` is the product of the word's integer and the FSR
constant (R66, R113), `F32` is SCALE of that integer (R115, R116), and `F32` is a normal number in the range of exponents
that range code `c` reaches (R121). -/
def LaneLawful (p : Params) (c : RangeCode) (l : LaneData) : Prop :=
  l.fx.toInt = l.w16.toInt * 2 ^ (c.toNat + 1) ∧
  l.f32 = scale p.scaleEval l.w16.toInt c ∧
  112 + c.toNat ≤ b32Exp l.f32 ∧ b32Exp l.f32 ≤ 128 + c.toNat

/-- A response beat the block may give: data only with status `OK`, and then every lane lawful at `FS_Q` (R66). -/
def ResponseLawful (p : Params) (r : ResponseBeat) : Prop :=
  ∀ d, r.data = some d →
    r.status = .ok ∧ LaneLawful p r.fsQ d.x ∧ LaneLawful p r.fsQ d.y ∧ LaneLawful p r.fsQ d.z

/-- The invariant: the parameters are legal and every response given so far is lawful. -/
def Inv (s : State) : Prop :=
  s.params.wf = true ∧ ∀ r ∈ s.responses, ResponseLawful s.params r

/-! ### The spec's step function, read off the byte tables

`step : State -> CommandBeat -> State × ResponseBeat` of R7, written by the numeric byte values of R62 and by arithmetic on the
bytes, without the decoder, the operations and the meanings of the machine. -/

/-- One lane by arithmetic: the word is `hi * 256 + lo`, its integer is that number less 65536 when `hi >= 0x80` (R90 to R92),
`FX` the pattern of the product (R113), `F32` SCALE (R115, R116). -/
def specLane (ev : ScaleEval) (c : RangeCode) (lo hi : Byte) : LaneData :=
  let n := hi.toNat * 256 + lo.toNat
  let v : Int := if hi.toNat < 0x80 then n else n - 65536
  { w16 := BitVec.ofNat Config.wordBits n, fx := BitVec.ofInt Config.fxBits (v * 2 ^ (c.toNat + 1)), f32 := scale ev v c }

/-- One command: the next `FSR` and the response (R140, R141, R142, R63, R202). -/
def specStep (ev : ScaleEval) (fsr : RangeCode) (b : CommandBeat) : RangeCode × ResponseBeat :=
  let n := b.cmd.toNat
  if n = 0x00 then (fsr, { status := .ok, fsQ := fsr, data := none })
  else if n ∈ [0x40, 0x50, 0x60, 0x70] then
    (BitVec.ofNat Config.fsBits (n / 16 - 4), { status := .ok, fsQ := BitVec.ofNat Config.fsBits (n / 16 - 4), data := none })
  else if n = 0x80 then
    (fsr, { status := .ok, fsQ := fsr
            data := some { x := specLane ev fsr b.raw.b0 b.raw.b1
                           y := specLane ev fsr b.raw.b2 b.raw.b3
                           z := specLane ev fsr b.raw.b4 b.raw.b5 } })
  else if n ∈ [0x41, 0x51, 0x61, 0x71, 0x81] then (fsr, { status := .busError, fsQ := fsr, data := none })
  else (fsr, { status := .illegalCommand, fsQ := fsr, data := none })

/-- A run: the list of events applied in order; reset sets `FSR` and gives no response (R146, R230). -/
def specRun (p : Params) (fsr : RangeCode) : List HostEvent → RangeCode × List ResponseBeat
  | [] => (fsr, [])
  | .reset :: es => specRun p p.fsrReset es
  | .beat b :: es =>
    let r := specRun p (specStep p.scaleEval fsr b).1 es
    (r.1, (specStep p.scaleEval fsr b).2 :: r.2)

/-- The range code left by the most recent successful SETFS in beat order, or by a reset, or else the one before (R46). -/
def latestCommit (p : Params) (fsr : RangeCode) (es : List HostEvent) : RangeCode :=
  es.foldl (fun c e =>
    match e with
    | .reset => p.fsrReset
    | .beat b => if b.cmd.toNat ∈ [0x40, 0x50, 0x60, 0x70] then BitVec.ofNat Config.fsBits (b.cmd.toNat / 16 - 4) else c) fsr

/-- A run of `k` steps that does not stop. -/
def SafeRun (k : Nat) (s : State) : Prop := ∃ t, Host.Core.run Sys2Proof.core k s = .next t

/-! ### The host's view of the device (spec/70_reset_and_hazards.md rules R231 to R233) -/

/-- What the host may take the device's full-scale setting to be after a driver operation: `some c` when it knows it, `none` when
it must not trust the scale. A successful `configure_full_scale` makes it known; a failed one, a reboot and a new handle make
it unknown (R231 (2), R232, R233; spec/91_not_in_source.md N5, N8). -/
def trackRange (known : Option RangeCode) : DriverCall → Option RangeCode
  | .create => none
  | .configureFullScale c true => some c
  | .configureFullScale _ false => none
  | .rebootMemoryContent _ => none
  | .powerOn _ => known
  | .powerOff _ => known
  | .configureDataRates _ _ => known
  | .toggleFifo _ _ => known
  | .configureFifoMode _ => known
  | .read _ => known

end Sys2Proof.Safety
end

