-- ==== Sys2Proof/Certificates/Slice0/Obligations.lean ====
section
/-! DEFINITION. Sys2Proof/Certificates/Slice0/Obligations.lean: the statements for the provers, in the order of the rules: reset,
encodings, stepping, commands, frames, unpack stages, scale stages, runs, context. The witness of a statement with hypotheses is
the theorem of the same name with `witness_` before it in Sys2Proof/Tests/Slice0.lean. -/

open Sys2Proof Sys2Proof.Machine Sys2Proof.Safety

/-! ### Reset -/

/-- R26, R230: after reset `FSR` holds `FSR_RESET`, for every parameter; a reset between commands writes it and gives no response
beat; nothing else is initialised. -/
def Obligations.ResetSetsFsrToItsParameter : Prop :=
  (∀ p : Params, (State.resetWith p).fsr = p.fsrReset) ∧
  ∀ (s : State) (rest : List HostEvent), s.pending = .reset :: rest →
    step s = .next { fsr := s.params.fsrReset, params := s.params, pending := rest, responses := s.responses }

/-- The model's choices at reset (log 1, 2, 4, 5, 6, 7): the spec's default parameters, nothing presented, no response. -/
def Obligations.ResetStateIsTheDefault : Prop :=
  State.reset =
    { fsr := 0#2, params := { fsrReset := 0#2, scaleEval := .b32Stepwise, sigBits := 12 }, pending := [], responses := [] }

/-- The invariant of `EveryStepKeepsTheInvariant` holds right after reset, under every legal choice of parameters. -/
def Obligations.InvariantHoldsAtReset : Prop :=
  Inv State.reset ∧ ∀ p : Params, p.wf = true → Inv (State.resetWith p)

/-! ### Encodings -/

/-- R62: the opcode map by match and mask; the three patterns are disjoint; eleven of the 256 byte values are legal. -/
def Obligations.OpcodeMapByMaskAndMatch : Prop :=
  (∀ (cmd : CmdByte) (raw : RawSample),
    (cmd &&& 0xFF#8 = 0x00#8 → decodeBeat { cmd, raw } = .ok .nop) ∧
    (cmd &&& 0xCE#8 = 0x40#8 →
      decodeBeat { cmd, raw } = .ok (.setfs (cmd.extractLsb' 4 2) (cmd.getLsbD 0))) ∧
    (cmd &&& 0xFE#8 = 0x80#8 → decodeBeat { cmd, raw } = .ok (.decode (cmd.getLsbD 0) raw))) ∧
  (∀ cmd : CmdByte, ¬ (cmd &&& 0xFF#8 = 0x00#8 ∧ cmd &&& 0xCE#8 = 0x40#8) ∧ ¬ (cmd &&& 0xFF#8 = 0x00#8 ∧ cmd &&& 0xFE#8 = 0x80#8) ∧
    ¬ (cmd &&& 0xCE#8 = 0x40#8 ∧ cmd &&& 0xFE#8 = 0x80#8)) ∧
  ((List.range 256).filter fun n =>
    (decodeBeat { cmd := BitVec.ofNat 8 n, raw := zeroRaw }).toOption.isSome).map (BitVec.ofNat 8) = legalCmds

/-- Words written out from the spec's encodings of the command byte (R61, R62; spec/95_test_vectors.md section 2) decode to the
commands they stand for. Which byte of a table word is `CMD`, and that the `RAW` bytes above `nbits` are zeros, is the model's own
choice (log 11, DEDUCED: the spec defines no serial order); the clause of 56 bits and the `zeroRaw` of the 8-bit words rest on it. -/
def Obligations.WordsFromTheSpecDecode : Prop :=
  decodeTableWord 8 0b00000000 = some .nop ∧
  decodeTableWord 8 0b01100000 = some (.setfs 2 false) ∧
  decodeTableWord 8 0b01110001 = some (.setfs 3 true) ∧
  decodeTableWord 8 0b10000001 = some (.decode true zeroRaw) ∧
  decodeTableWord 56 0x0000C000400080 =
    some (.decode false { b0 := 0x00, b1 := 0x40, b2 := 0x00, b3 := 0xC0, b4 := 0x00, b5 := 0x00 }) ∧
  decodeTableWord 8 0b10010001 = none

/-- Decode and encode agree, for every command and every operand, as a beat and as its seven bytes (R60, R62, R64, R71). -/
def Obligations.DecodeInvertsEncode : Prop :=
  ∀ i : Instr, decodeBeat (encode i) = .ok i ∧ decodeBytes (beatBytes (encode i)) = .ok i

/-- The other direction: a legal beat is the encoding of the command it decodes to, in its command byte and, for a DECODE, in
all seven bytes (the `RAW` of the other commands is ignored, R147). -/
def Obligations.EncodeInvertsDecode : Prop :=
  ∀ (b : CommandBeat) (i : Instr), decodeBeat b = .ok i →
    (encode i).cmd = b.cmd ∧ ∀ (xerr : Bool) (raw : RawSample), i = .decode xerr raw → encode i = b

/-- The pseudo-commands of R73 expand as the table says: `SETFS.G g` to `SETFS log2(g) - 1`, and `DECODEW x, y, z` to a `DECODE` of
the little-endian bytes of the three words. -/
def Obligations.PseudoCommandsExpand : Prop :=
  (∀ (c : RangeCode) (fail : Bool),
    assemble (.setfsG (2 ^ (c.toNat + 1)) fail) = assemble (.setfs c.toNat fail) ∧
    assemble (.setfs c.toNat fail) = some (encode (.setfs c fail))) ∧
  ∀ x y z : Int, -32768 ≤ x → x ≤ 32767 → -32768 ≤ y → y ≤ 32767 → -32768 ≤ z → z ≤ 32767 →
    assemble (.decodew x y z) = assemble (.decode
      [(x % 65536).toNat % 256, (x % 65536).toNat / 256, (y % 65536).toNat % 256, (y % 65536).toNat / 256,
       (z % 65536).toNat % 256, (z % 65536).toNat / 256]) ∧
    (assemble (.decodew x y z)).isSome = true

/-! ### Stepping -/

/-- A step runs the decoded command on the state without the beat it took, and adds nothing around it (R143). -/
def Obligations.StepRunsTheDecodedCommand : Prop :=
  ∀ (s : State) (b : CommandBeat) (rest : List HostEvent) (i : Instr),
    s.pending = .beat b :: rest → decodeBeat b = .ok i → step s = exec i { s with pending := rest }

/-- The presented beat of a table word is what the next step runs (log 1, log 11). -/
def Obligations.PlacedWordIsRunNext : Prop :=
  ∀ (s : State) (nbits w : Nat) (i : Instr), decodeTableWord nbits w = some i →
    step (s.withFetchWord nbits w) = exec i s

/-- The model's own stop (log 3): with nothing presented there is no step. -/
def Obligations.StepStopsOnlyWhenNothingIsPresented : Prop :=
  ∀ s : State, (s.pending = [] → step s = .fault .noCommandBeat) ∧ (s.pending ≠ [] → ∃ t, step s = .next t)

/-- R63, R202, R205: every byte with `OP` = 0b11, with `RSV` ≠ 0, every one of 0x01 to 0x3F and 0x90 to 0xBF is illegal, whatever its bit 0
is: `FSR` as it was, no data, status `IllegalCommand`, and the next beat is taken as usual. No other byte is illegal. -/
def Obligations.ReservedByteAnswersIllegalCommand : Prop :=
  ∀ (s : State) (b : CommandBeat) (rest : List HostEvent), s.pending = .beat b :: rest →
    (0xC0 ≤ b.cmd.toNat ∨ b.cmd.extractLsb' 1 3 ≠ 0#3 ∨ (0x01 ≤ b.cmd.toNat ∧ b.cmd.toNat ≤ 0x3F) ∨
        (0x90 ≤ b.cmd.toNat ∧ b.cmd.toNat ≤ 0xBF) →
      step s = .next { fsr := s.fsr, params := s.params, pending := rest
                       responses := s.responses ++ [{ status := .illegalCommand, fsQ := s.fsr, data := none }] }) ∧
    (¬ (0xC0 ≤ b.cmd.toNat ∨ b.cmd.extractLsb' 1 3 ≠ 0#3 ∨ (0x01 ≤ b.cmd.toNat ∧ b.cmd.toNat ≤ 0x3F) ∨
        (0x90 ≤ b.cmd.toNat ∧ b.cmd.toNat ≤ 0xBF)) →
      ∃ i, decodeBeat b = .ok i ∧ step s = exec i { s with pending := rest })

/-- R148, R60: for every `FSR`, `CMD` and `RAW` there is exactly one next `FSR` and exactly one response beat, and they depend on
nothing but `FSR`, the beat and `SCALE_EVAL`: not on earlier responses, not on what is presented later. `FS_Q` is `FSR` after the
command. -/
def Obligations.EveryBeatYieldsOneResponse : Prop :=
  ∀ (ev : ScaleEval) (fsr : RangeCode) (b : CommandBeat), ∃ (fsr' : RangeCode) (r : ResponseBeat), r.fsQ = fsr' ∧
    ∀ (s : State) (rest : List HostEvent), s.params.scaleEval = ev → s.fsr = fsr → s.pending = .beat b :: rest →
      step s = .next { fsr := fsr', params := s.params, pending := rest, responses := s.responses ++ [r] }

/-- R147: `RAW` is ignored by NOP, by SETFS, by a failed DECODE and by an illegal command; the `FS` operand is ignored by a
failed SETFS. -/
def Obligations.UnusedInputsAreIgnored : Prop :=
  (∀ (s : State) (cmd : CmdByte) (raw raw' : RawSample) (rest : List HostEvent), cmd ≠ 0x80#8 →
    step { s with pending := .beat { cmd, raw } :: rest } = step { s with pending := .beat { cmd, raw := raw' } :: rest }) ∧
  (∀ (s : State) (c c' : RangeCode), exec (.setfs c true) s = exec (.setfs c' true) s)

/-- R207: a failed command leaves no trace: but for its own response the block stands as if it had been a NOP. -/
def Obligations.FailedCommandActsAsNop : Prop :=
  ∀ (s t : State) (b : CommandBeat) (rest : List HostEvent) (r : ResponseBeat),
    s.pending = .beat b :: rest → step s = .next t → t.responses = s.responses ++ [r] → r.status ≠ .ok →
    ∃ u, step { s with pending := .beat (encode .nop) :: rest } = .next u ∧
      t = { u with responses := s.responses ++ [r] } ∧ r.data = none ∧ r.fsQ = s.fsr

/-- R200, R201, R205: which bytes give which status, and the codes; 3 is never one. -/
def Obligations.StatusOfEveryCommandByte : Prop :=
  (statusCode .ok = 0#2 ∧ statusCode .busError = 1#2 ∧ statusCode .illegalCommand = 2#2 ∧ ∀ st, statusCode st ≠ 3#2) ∧
  ∀ (s t : State) (b : CommandBeat) (rest : List HostEvent) (r : ResponseBeat),
    s.pending = .beat b :: rest → step s = .next t → t.responses = s.responses ++ [r] →
    (r.status = .ok ↔ b.cmd ∈ [0x00#8, 0x40#8, 0x50#8, 0x60#8, 0x70#8, 0x80#8]) ∧
    (r.status = .busError ↔ b.cmd ∈ [0x41#8, 0x51#8, 0x61#8, 0x71#8, 0x81#8]) ∧
    (r.status = .illegalCommand ↔ b.cmd ∉ legalCmds)

/-- R66: the nine data fields are present exactly when the command is DECODE and the status is `OK`, all together. -/
def Obligations.DataPresentExactlyOnSuccessfulDecode : Prop :=
  ∀ (s t : State) (b : CommandBeat) (rest : List HostEvent) (r : ResponseBeat),
    s.pending = .beat b :: rest → step s = .next t → t.responses = s.responses ++ [r] →
    (r.data.isSome = true ↔ ((∃ xerr raw, decodeBeat b = .ok (.decode xerr raw)) ∧ r.status = .ok)) ∧
    (r.data.isSome = true ↔ b.cmd = 0x80#8)

/-! ### The commands: results (each says that the command completes, in every state) -/

/-- R140: NOP answers `OK` and `FSR`, without data, and writes nothing. -/
def Obligations.NopReportsFsr : Prop :=
  ∀ s : State, exec .nop s =
    .next { fsr := s.fsr, params := s.params, pending := s.pending
            responses := s.responses ++ [{ status := .ok, fsQ := s.fsr, data := none }] }

/-- R141: SETFS with `e = 0` writes `c` to `FSR` and answers `OK` with it; with `e = 1` it raises `BusError` and `FSR` stays. -/
def Obligations.SetfsCommitsOnSuccessOnly : Prop :=
  ∀ (c : RangeCode) (s : State),
    exec (.setfs c false) s =
      .next { fsr := c, params := s.params, pending := s.pending
              responses := s.responses ++ [{ status := .ok, fsQ := c, data := none }] } ∧
    exec (.setfs c true) s =
      .next { fsr := s.fsr, params := s.params, pending := s.pending
              responses := s.responses ++ [{ status := .busError, fsQ := s.fsr, data := none }] }

/-- R142: DECODE with `e = 0` answers `OK` with three lanes: the word `RAW[2a+1] * 256 + RAW[2a]`, the product of its
two's-complement integer and `2^(c+1)` as a 20-bit pattern, and SCALE under `SCALE_EVAL`, with `c = FSR`; `FSR` is not changed.
With `e = 1` it raises `BusError` without data. -/
def Obligations.DecodeDeliversThreeScaledAxes : Prop :=
  ∀ (raw : RawSample) (s : State),
    (∃ d : DecodeData,
      exec (.decode false raw) s =
        .next { fsr := s.fsr, params := s.params, pending := s.pending
                responses := s.responses ++ [{ status := .ok, fsQ := s.fsr, data := some d }] } ∧
      ∀ l lo hi, (l, lo, hi) ∈ [(d.x, raw.b0, raw.b1), (d.y, raw.b2, raw.b3), (d.z, raw.b4, raw.b5)] →
        l.w16.toNat = hi.toNat * 256 + lo.toNat ∧
        l.fx.toInt = l.w16.toInt * 2 ^ (s.fsr.toNat + 1) ∧
        (s.params.scaleEval = .b32Stepwise → l.f32 = scaleA l.w16.toInt s.fsr) ∧
        (s.params.scaleEval = .exactRn → l.f32 = scaleB l.w16.toInt s.fsr)) ∧
    exec (.decode true raw) s =
      .next { fsr := s.fsr, params := s.params, pending := s.pending
              responses := s.responses ++ [{ status := .busError, fsQ := s.fsr, data := none }] }

/-- R124: the lanes are independent and identical: lane `a` is one function of `c = FSR` and of `RAW[2a]` and `RAW[2a+1]`. -/
def Obligations.LanesAreIndependent : Prop :=
  ∀ ev : ScaleEval, ∃ lane : RangeCode → Byte → Byte → LaneData, ∀ (s : State) (raw : RawSample), s.params.scaleEval = ev →
    exec (.decode false raw) s =
      .next { s with responses := s.responses ++ [{
        status := .ok, fsQ := s.fsr
        data := some { x := lane s.fsr raw.b0 raw.b1, y := lane s.fsr raw.b2 raw.b3, z := lane s.fsr raw.b4 raw.b5 } }] }

/-! ### Frames -/

/-- The frame of all three commands: parameters and later events unchanged, exactly one response added, and `FSR` unchanged but
by a successful SETFS, which leaves its operand there (R20, R140 to R142). The block has no memory, no flags and no other
register (R21 to R25, R28, R40). -/
def Obligations.FrameOfEveryCommand : Prop :=
  ∀ (i : Instr) (s t : State), exec i s = .next t →
    t.params = s.params ∧ t.pending = s.pending ∧ (∃ r, t.responses = s.responses ++ [r]) ∧
    (∀ c, i = .setfs c false → t.fsr = c) ∧ ((∀ c, i ≠ .setfs c false) → t.fsr = s.fsr)

/-- R20: `FSR` is written by SETFS with its failure bit clear, and by reset; by nothing else. -/
def Obligations.OnlySetfsAndResetWriteFsr : Prop :=
  ∀ s t : State, step s = .next t → t.fsr ≠ s.fsr →
    (∃ rest, s.pending = .reset :: rest ∧ t.fsr = s.params.fsrReset) ∨
    (∃ b rest c, s.pending = .beat b :: rest ∧ decodeBeat b = .ok (.setfs c false) ∧ t.fsr = c ∧
      b.cmd ∈ [0x40#8, 0x50#8, 0x60#8, 0x70#8])

/-! ### Unpack stages -/

/-- R90: UNPACK puts `hi` above `lo`; the bytes are unsigned when combined. -/
def Obligations.UnpackIsLittleEndian : Prop :=
  ∀ lo hi : Byte, (unpack lo hi).toNat = hi.toNat * 256 + lo.toNat ∧
    (unpack lo hi).extractLsb' 8 8 = hi ∧ (unpack lo hi).extractLsb' 0 8 = lo

/-- R41: the 48-bit view of `RAW` holds the x word in bits 15:0, the y word in bits 31:16 and the z word in bits 47:32. -/
def Obligations.RawViewHoldsTheThreeWords : Prop :=
  ∀ raw : RawSample, (rawView48 raw).extractLsb' 0 16 = axisWord raw .x ∧
    (rawView48 raw).extractLsb' 16 16 = axisWord raw .y ∧ (rawView48 raw).extractLsb' 32 16 = axisWord raw .z

/-- R91: SEXT is the two's-complement reading, and at a wider width its pattern keeps bits 15:0 and copies bit 15 above. -/
def Obligations.SextReadsTwosComplement : Prop :=
  ∀ w : Word16,
    sext16 w = (if w.toNat < 32768 then (w.toNat : Int) else (w.toNat : Int) - 65536) ∧
    ∀ n i : Nat, 16 < n → i < n → (tcN n (sext16 w)).getLsbD i = (if i < 16 then w.getLsbD i else w.getLsbD 15)

/-- R92: SEXT after UNPACK is a bijection from byte pairs onto -32768 to 32767 with the inverse given, and the sign is bit 7 of
the high byte. -/
def Obligations.UnpackThenSextIsABijection : Prop :=
  (∀ lo hi : Byte, -32768 ≤ sext16 (unpack lo hi) ∧ sext16 (unpack lo hi) ≤ 32767) ∧
  (∀ v : Int, -32768 ≤ v → v ≤ 32767 → ∀ lo hi : Byte,
    sext16 (unpack lo hi) = v ↔ (lo = (tcN 16 v).extractLsb' 0 8 ∧ hi = (tcN 16 v).extractLsb' 8 8)) ∧
  (∀ lo hi : Byte, sext16 (unpack lo hi) < 0 ↔ 0x80 ≤ hi.toNat)

/-- R93 to R95: the view. For every `SIG_BITS` = n from 1 to 16, `v = 2^(16-n) * s + pad`; at 12, `s12` is the floor of `v / 16` and
with zero pad bits the product is `s12 * 2^(c+5)`. -/
def Obligations.SampleViewSplitsTheWord : Prop :=
  (∀ (w : Word16) (n : Nat), 1 ≤ n → n ≤ 16 →
    sext16 w = 2 ^ (16 - n) * (sigView n w).toInt + (padView n w).toNat ∧
    -(2 ^ (n - 1) : Int) ≤ (sigView n w).toInt ∧ (sigView n w).toInt < 2 ^ (n - 1)) ∧
  (∀ w : Word16, (s12 w).toInt = sext16 w / 16 ∧ sext16 w = 16 * (s12 w).toInt + (pad w).toNat ∧ (pad w).toNat ≤ 15) ∧
  (∀ (w : Word16) (c : RangeCode), pad w = 0#4 → fxmul (sext16 w) c = (s12 w).toInt * 2 ^ (c.toNat + 5))

/-! ### The fixed-point product -/

/-- R113: the 20-bit pattern holds the exact product for every sample and range; no overflow; the low `c + 1` bits are zero; the
multiplier is a left shift of the sign-extended word. -/
def Obligations.FixedPointProductIsExact : Prop :=
  (∀ (v : Int) (c : RangeCode), -32768 ≤ v → v ≤ 32767 →
    (fxPattern v c).toInt = v * 2 ^ (c.toNat + 1) ∧
    -524288 ≤ v * 2 ^ (c.toNat + 1) ∧ v * 2 ^ (c.toNat + 1) ≤ 524272 ∧
    ∀ i, i < c.toNat + 1 → (fxPattern v c).getLsbD i = false) ∧
  ∀ (w : Word16) (c : RangeCode), fxPattern (sext16 w) c = w.signExtend 20 <<< (c.toNat + 1)

/-- R114: how `FX`, the ratio `g` and the law `f` stand to each other. -/
def Obligations.LawExceedsRatioByAtMostOneCount : Prop :=
  ∀ (v : Int) (c : RangeCode), -32768 ≤ v → v ≤ 32767 →
    fxValue (fxPattern v c) = ratioG v c ∧
    law v c = (2 * (fxmul v c : ℚ) + 2 ^ (c.toNat + 1)) / 65535 ∧
    law v c - ratioG v c = 2 ^ (c.toNat + 1) * ((v : ℚ) + 32768) / (65535 * 32768) ∧
    0 ≤ law v c - ratioG v c ∧ law v c - ratioG v c ≤ 2 ^ (c.toNat + 1) / 32768

/-! ### The scale law -/

/-- R111: the written formula is `2^(c+1) * (2*v + 1) / 65535`. -/
def Obligations.ScaleLawInClosedForm : Prop :=
  ∀ (v : Int) (c : RangeCode),
    law v c = -(2 ^ (c.toNat + 1) : ℚ) + ((v : ℚ) + 32768) * (2 * 2 ^ (c.toNat + 1)) / 65535 ∧
    law v c = 2 ^ (c.toNat + 1) * (2 * (v : ℚ) + 1) / 65535

/-- R112 (a) to (f), (h): end points, never zero and the smallest magnitude, sign, odd symmetry about -1/2, constant step, powers of
two between ranges, and the value at 16384. -/
def Obligations.ScaleLawProperties : Prop :=
  ∀ c : RangeCode,
    law (-32768) c = -(2 ^ (c.toNat + 1)) ∧ law 32767 c = 2 ^ (c.toNat + 1) ∧
    (∀ v : Int, 2 ^ (c.toNat + 1) / 65535 ≤ |law v c|) ∧
    (∀ v : Int, (0 < law v c ↔ 0 ≤ v) ∧ (law v c < 0 ↔ v ≤ -1)) ∧
    (∀ v : Int, law (-1 - v) c = -law v c) ∧
    (∀ v : Int, law (v + 1) c - law v c = 2 * 2 ^ (c.toNat + 1) / 65535) ∧
    (∀ v : Int, law v c = 2 ^ c.toNat * law v 0) ∧
    law 16384 c = 2 ^ (c.toNat + 1) * 32769 / 65535

/-- R112 (g): the law is a dyadic rational only at the two end points. -/
def Obligations.ScaleLawIsDyadicOnlyAtEndPoints : Prop :=
  ∀ (v : Int) (c : RangeCode), -32768 ≤ v → v ≤ 32767 →
    ((∃ (m : Int) (k : Nat), law v c * 2 ^ k = m) ↔ (v = -32768 ∨ v = 32767))

/-! ### Binary32 -/

/-- R11, R117: in the normal range `RN32(x)` is a normal number nearest `x` among all normal numbers, and where another is as near its
own fraction is even. -/
def Obligations.RoundingIsToNearestTiesToEven : Prop :=
  ∀ (x : ℚ) (e : Int), (2 : ℚ) ^ e ≤ |x| → |x| < (2 : ℚ) ^ (e + 1) → -126 ≤ e → e ≤ 126 →
    b32Normal (rn32 x) = true ∧
    ∀ p : B32, b32Normal p = true →
      |val (rn32 x) - x| ≤ |val p - x| ∧
      (|val (rn32 x) - x| = |val p - x| → val p ≠ val (rn32 x) → b32Frac (rn32 x) % 2 = 0)

/-- R11, R68: rounding the number a normal pattern denotes gives that pattern back. -/
def Obligations.NormalNumbersRoundToThemselves : Prop :=
  ∀ p : B32, b32Normal p = true → rn32 (val p) = p

/-! ### SCALE -/

/-- R115: written without its exact steps, EVAL-A rounds twice. -/
def Obligations.StepwiseEvaluationRoundsTwice : Prop :=
  ∀ (v : Int) (c : RangeCode), -32768 ≤ v → v ≤ 32767 →
    scaleA v c = rn32 (val (rn32 (((v : ℚ) + 32768) * 2 ^ (c.toNat + 2) / 65535)) - 2 ^ (c.toNat + 1))

/-- R115: the second rounding of EVAL-A is exact from `v = -16384` on. -/
def Obligations.SecondRoundingIsExactAboveHalfScale : Prop :=
  ∀ (v : Int) (c : RangeCode), -16384 ≤ v → v ≤ 32767 →
    val (scaleA v c) = val (rn32 (((v : ℚ) + 32768) * 2 ^ (c.toNat + 2) / 65535)) - 2 ^ (c.toNat + 1)

/-- R118 (g), first part, R112 (g): a result equals the law only at the two end points, for both evaluations. -/
def Obligations.ResultsEqualTheLawOnlyAtEndPoints : Prop :=
  ∀ (ev : ScaleEval) (v : Int) (c : RangeCode), -32768 ≤ v → v ≤ 32767 →
    (val (scale ev v c) = law v c ↔ (v = -32768 ∨ v = 32767))

/-- R115, R116, R142 (d): both evaluations give the end points exactly. -/
def Obligations.EndPointsAreExact : Prop :=
  ∀ (ev : ScaleEval) (c : RangeCode),
    val (scale ev (-32768) c) = -(2 ^ (c.toNat + 1)) ∧ val (scale ev 32767 c) = 2 ^ (c.toNat + 1)

/-- R118 (a): EVAL-A is within `2^(c-23)` of the law. -/
def Obligations.StepwiseEvaluationError : Prop :=
  ∀ (v : Int) (c : RangeCode), -32768 ≤ v → v ≤ 32767 →
    |val (scaleA v c) - law v c| < (2 : ℚ) ^ ((c.toNat : Int) - 23)

/-- R118 (b): EVAL-B is within half a unit in the last place of the law. -/
def Obligations.ExactEvaluationError : Prop :=
  ∀ (v : Int) (c : RangeCode), -32768 ≤ v → v ≤ 32767 →
    |val (scaleB v c) - law v c| ≤ (2 : ℚ) ^ (-24 : Int) * |law v c|

/-- R118 (c), first part: the two evaluations differ by at most `2^(c-23)`. -/
def Obligations.EvaluationsDifferByAtMost : Prop :=
  ∀ (v : Int) (c : RangeCode), -32768 ≤ v → v ≤ 32767 →
    |val (scaleA v c) - val (scaleB v c)| ≤ (2 : ℚ) ^ ((c.toNat : Int) - 23)

/-- R118 (d): both evaluations exceed the ratio `g` by 0 to `2^(c-14)`, by 0 at the low end and by all of it at the high end. -/
def Obligations.ResultsWithinOneCountOfTheRatio : Prop :=
  ∀ (ev : ScaleEval) (c : RangeCode),
    (∀ v : Int, -32768 ≤ v → v ≤ 32767 →
      0 ≤ val (scale ev v c) - ratioG v c ∧ val (scale ev v c) - ratioG v c ≤ (2 : ℚ) ^ ((c.toNat : Int) - 14)) ∧
    val (scale ev (-32768) c) - ratioG (-32768) c = 0 ∧
    val (scale ev 32767 c) - ratioG 32767 c = (2 : ℚ) ^ ((c.toNat : Int) - 14)

/-- R118 (e): a result is positive exactly when `v >= 0`, and never zero. -/
def Obligations.ResultSignFollowsTheSample : Prop :=
  ∀ (ev : ScaleEval) (v : Int) (c : RangeCode), -32768 ≤ v → v ≤ 32767 →
    (0 < val (scale ev v c) ↔ 0 ≤ v) ∧ val (scale ev v c) ≠ 0

/-- R118 (f): both evaluations are strictly increasing. -/
def Obligations.ResultsStrictlyIncrease : Prop :=
  ∀ (ev : ScaleEval) (v w : Int) (c : RangeCode), -32768 ≤ v → v < w → w ≤ 32767 →
    val (scale ev v c) < val (scale ev w c)

/-- R119: changing the range adds `c` to the exponent field and multiplies the value by `2^c`, for both evaluations. -/
def Obligations.RangeChangesOnlyTheExponent : Prop :=
  ∀ (ev : ScaleEval) (v : Int) (c : RangeCode), -32768 ≤ v → v ≤ 32767 →
    scale ev v c = scale ev v 0 + BitVec.ofNat 32 (c.toNat * 2 ^ 23) ∧
    val (scale ev v c) = 2 ^ c.toNat * val (scale ev v 0)

/-- R121: every result is a normal number with biased exponent from 112 + c to 128 + c and magnitude from `2^-15` to 16. -/
def Obligations.ResultsAreNormalNumbers : Prop :=
  ∀ (ev : ScaleEval) (v : Int) (c : RangeCode), -32768 ≤ v → v ≤ 32767 →
    b32Normal (scale ev v c) = true ∧ 112 + c.toNat ≤ b32Exp (scale ev v c) ∧ b32Exp (scale ev v c) ≤ 128 + c.toNat ∧
    (2 : ℚ) ^ (-15 : Int) ≤ |val (scale ev v c)| ∧ |val (scale ev v c)| ≤ 16

/-- R116: EVAL-B is odd about -1/2, sign bit and all. -/
def Obligations.ExactEvaluationIsOdd : Prop :=
  ∀ (v : Int) (c : RangeCode), -32768 ≤ v → v ≤ 32767 → scaleB (-1 - v) c = scaleB v c ^^^ 0x80000000#32

/-- R120, spec/95_test_vectors.md S2: the document's three examples at 2 g, as patterns and as what `FX` denotes. -/
def Obligations.DocumentScalingExamples : Prop :=
  scaleA 16384 0 = 0x3F800180#32 ∧ scaleA (-16384) 0 = 0xBF7FFF00#32 ∧ scaleA 0 0 = 0x38000000#32 ∧
  scaleB 16384 0 = 0x3F800180#32 ∧ scaleB (-16384) 0 = 0xBF7FFF00#32 ∧ scaleB 0 0 = 0x38000080#32 ∧
  fxValue (fxPattern 16384 0) = 1 ∧ fxValue (fxPattern (-16384) 0) = -1 ∧ fxValue (fxPattern 0 0) = 0

/-! ### The machine as a whole -/

/-- R7: one step is the spec's step function, read off the byte tables and by arithmetic on the bytes. -/
def Obligations.StepRefinesTheSpecStep : Prop :=
  ∀ (s : State) (b : CommandBeat) (rest : List HostEvent), s.pending = .beat b :: rest →
    step s = .next { fsr := (specStep s.params.scaleEval s.fsr b).1, params := s.params, pending := rest
                     responses := s.responses ++ [(specStep s.params.scaleEval s.fsr b).2] }

/-- R146, R143: a run takes every event in order and ends; its observable result is the list of responses and the final `FSR` of
the spec's run. -/
def Obligations.RunRefinesTheSpecRun : Prop :=
  ∀ s : State, Host.Core.run core s.pending.length s =
    .next { fsr := (specRun s.params s.fsr s.pending).1, params := s.params, pending := []
            responses := s.responses ++ (specRun s.params s.fsr s.pending).2 }

/-- R146, R148: exactly the runs of at most the presented events do not stop. -/
def Obligations.RunsOfPresentedEventsAreSafe : Prop :=
  ∀ (s : State) (k : Nat), SafeRun k s ↔ k ≤ s.pending.length

/-- R46 (a), (b): after any number of steps `FSR` is what the most recent successful SETFS, or reset, left: a DECODE taken next is scaled
by it. Failed and illegal commands in between change nothing. -/
def Obligations.FsrIsTheLatestCommit : Prop :=
  ∀ (s : State) (k : Nat), k ≤ s.pending.length →
    ∃ t, Host.Core.run core k s = .next t ∧ t.pending = s.pending.drop k ∧
      t.fsr = latestCommit s.params s.fsr (s.pending.take k)

/-- The invariant every step keeps, from every state that meets it: legal parameters, and every response ever given is lawful (data
only with `OK`; word, product and result of each lane agree at `FS_Q`; every result normal). -/
def Obligations.EveryStepKeepsTheInvariant : Prop :=
  ∀ s t : State, Inv s → step s = .next t → Inv t

/-! ### Context: the surrounding driver -/

/-- R173: `apply_field` writes the value into its field and leaves every other bit alone; a value or field that does not fit is
refused (log 13). -/
def Obligations.ApplyFieldIsSurgical : Prop :=
  ∀ (byte : Byte) (f : RegField) (value : Nat),
    (f.offset + f.width ≤ 8 → value < 2 ^ f.width → ∃ r, applyField byte f value = some r ∧
      (∀ i, i < f.width → r.getLsbD (f.offset + i) = value.testBit i) ∧
      ∀ i, i < 8 → (i < f.offset ∨ f.offset + f.width ≤ i) → r.getLsbD i = byte.getLsbD i) ∧
    (¬ (f.offset + f.width ≤ 8 ∧ value < 2 ^ f.width) → applyField byte f value = none)

/-- R65, R177: the control byte `configure_full_scale` writes holds the range code in bits 5:4. -/
def Obligations.FullScaleByteHoldsTheRangeCode : Prop :=
  ∀ (old : Byte) (c : RangeCode), ∃ r, fullScaleByte old c = some r ∧ rangeOfControl r = c

/-- R144, and R145 as log 14 reads it (DEDUCED: what a driver operation presents is `driverEvents`): power transitions and
data-rate, FIFO and reboot operations present nothing to the block, whether they succeed or not; after any number of operations
that present nothing a successful read is answered `OK`, with the six bytes decoded and scaled by the `FSR` it found, and `FSR`
stays. -/
def Obligations.PowerTransitionsDoNotDisturbTheBlock : Prop :=
  (∀ (ok enable : Bool) (mode : BitVec 4), ∀ call ∈ [DriverCall.powerOn ok, .powerOff ok, .configureDataRates mode ok,
    .toggleFifo enable ok, .configureFifoMode ok, .rebootMemoryContent ok], driverEvents call = []) ∧
  ∀ (s : State) (calls : List DriverCall) (raw : RawSample), (∀ call ∈ calls, driverEvents call = []) →
    s.pending = (calls ++ [DriverCall.read (some raw)]).flatMap driverEvents →
    step s = .next { s with
      pending := []
      responses := s.responses ++
        [{ status := .ok, fsQ := s.fsr, data := some (decodeLanes s.params.scaleEval s.fsr raw) }] }

/-- R231 (2), R232, R233: whatever the driver does, where the host's bookkeeping takes the device's range as known, `FSR` holds it.
The bookkeeping `trackRange` is the model's own (log 17, DESIGN CHOICE, unsafe), and so is what an operation presents (log 14,
DEDUCED): a failed `configure_full_scale` presents `SETFS c, fail`, where R177 lets it present nothing as well. -/
def Obligations.KnownDeviceRangeIsTheStoredSelection : Prop :=
  ∀ (calls : List DriverCall) (s t : State) (c : RangeCode), s.pending = calls.flatMap driverEvents →
    Host.Core.run core s.pending.length s = .next t → calls.foldl trackRange none = some c → t.fsr = c
end

