-- ==== Sys2Proof/Laws/Binary32.lean ====
section
/-! SUPPORT. Sys2Proof/Laws/Binary32.lean: what `RN32` and `val` do (spec/41_scale.md rule R117; spec/30_encoding.md rule
R68): the spec lemmas the proofs about SCALE cite. The main ones are `rn32_normal_half_ulp` and `rn32_exact`. -/

namespace Sys2Proof.Machine

theorem pow2_eq_zpow (e : Int) : pow2 e = (2 : ℚ) ^ e := by
  unfold pow2
  split
  · rename_i h
    obtain ⟨n, rfl⟩ := Int.eq_ofNat_of_zero_le h
    simp
  · rename_i h
    obtain ⟨n, hn⟩ := Int.eq_ofNat_of_zero_le (show 0 ≤ -e by omega)
    obtain rfl : e = -(n : Int) := by omega
    simp

/-! ### The fields of a packed pattern -/

theorem getLsbD_packB32 (s : Bool) (e f i : Nat) :
    (packB32 s e f).getLsbD i =
      if i < 23 then (BitVec.ofNat 23 f).getLsbD i
      else if i - 23 < 8 then (BitVec.ofNat 8 e).getLsbD (i - 23) else (BitVec.ofBool s).getLsbD (i - 23 - 8) := by
  have h : (packB32 s e f).getLsbD i
      = (BitVec.ofBool s ++ BitVec.ofNat 8 e ++ BitVec.ofNat 23 f : BitVec (1 + 8 + 23)).getLsbD i := rfl
  rw [h, BitVec.getLsbD_append, BitVec.getLsbD_append]

theorem b32Sign_packB32 (s : Bool) (e f : Nat) : b32Sign (packB32 s e f) = s := by
  cases s <;> simp [b32Sign, getLsbD_packB32, -BitVec.getLsbD_eq_getElem]

theorem b32Exp_packB32 (s : Bool) {e : Nat} (f : Nat) (h : e < 256) : b32Exp (packB32 s e f) = e := by
  have : (packB32 s e f).extractLsb' 23 8 = BitVec.ofNat 8 e := by
    apply BitVec.eq_of_getLsbD_eq
    intro i hi
    rw [BitVec.getLsbD_extractLsb', getLsbD_packB32]
    simp [show ¬ (23 + i < 23) by omega, hi]
  simp [b32Exp, this, Nat.mod_eq_of_lt h]

theorem b32Frac_packB32 (s : Bool) (e : Nat) {f : Nat} (h : f < 2 ^ 23) : b32Frac (packB32 s e f) = f := by
  have : (packB32 s e f).extractLsb' 0 23 = BitVec.ofNat 23 f := by
    apply BitVec.eq_of_getLsbD_eq
    intro i hi
    rw [BitVec.getLsbD_extractLsb', getLsbD_packB32]
    simp [hi]
  simp [b32Frac, this]
  omega

/-- A pattern with a biased exponent from 1 to 254 is normal and denotes what R68 says. -/
theorem val_packB32 (s : Bool) {e f : Nat} (h1 : 1 ≤ e) (h2 : e ≤ 254) (hf : f < 2 ^ 23) :
    b32Normal (packB32 s e f) = true ∧
    val (packB32 s e f) = (if s then -1 else 1) * (2 : ℚ) ^ ((e : Int) - 127) * (1 + (f : ℚ) / 8388608) := by
  have hn : b32Normal (packB32 s e f) = true := by
    simp [b32Normal, b32Exp_packB32 s f (show e < 256 by omega), h1, h2]
  refine ⟨hn, ?_⟩
  simp only [val, hn, if_true, b32Sign_packB32, b32Exp_packB32 s f (show e < 256 by omega), b32Frac_packB32 s e hf,
    pow2_eq_zpow]

/-! ### The steps of the rounding algorithm -/

theorem pow2LeRatio_iff {num den : Nat} (hd : 0 < den) (k : Int) :
    pow2LeRatio num den k = true ↔ (2 : ℚ) ^ k ≤ (num : ℚ) / den := by
  have hd' : (0 : ℚ) < den := by exact_mod_cast hd
  unfold pow2LeRatio
  split
  · rename_i h
    obtain ⟨n, rfl⟩ := Int.eq_ofNat_of_zero_le h
    rw [le_div_iff₀ hd', zpow_natCast, mul_comm]
    simp only [Int.toNat_natCast, decide_eq_true_eq]
    exact_mod_cast Iff.rfl
  · rename_i h
    obtain ⟨n, hn⟩ := Int.eq_ofNat_of_zero_le (show 0 ≤ -k by omega)
    obtain rfl : k = -(n : Int) := by omega
    rw [zpow_neg, zpow_natCast, inv_le_iff_one_le_mul₀ (by positivity), div_mul_eq_mul_div, one_le_div hd']
    simp only [neg_neg, Int.toNat_natCast, decide_eq_true_eq]
    exact_mod_cast Iff.rfl

/-- `floorLog2` is the integer `e` of R117. -/
theorem floorLog2_spec {num den : Nat} (hn : 0 < num) (hd : 0 < den) :
    (2 : ℚ) ^ floorLog2 num den ≤ (num : ℚ) / den ∧ (num : ℚ) / den < (2 : ℚ) ^ (floorLog2 num den + 1) := by
  have hd' : (0 : ℚ) < den := by exact_mod_cast hd
  have n1 : (2 : ℚ) ^ ((num.log2 : Nat) : Int) ≤ num := by
    rw [zpow_natCast]; exact_mod_cast Nat.log2_self_le (by omega)
  have n2 : (num : ℚ) < (2 : ℚ) ^ ((num.log2 : Nat) + 1 : Int) := by
    have h := @Nat.lt_log2_self num
    rw [← Nat.cast_succ, zpow_natCast]; exact_mod_cast h
  have d1 : (2 : ℚ) ^ ((den.log2 : Nat) : Int) ≤ den := by
    rw [zpow_natCast]; exact_mod_cast Nat.log2_self_le (by omega)
  have d2 : (den : ℚ) < (2 : ℚ) ^ ((den.log2 : Nat) + 1 : Int) := by
    have h := @Nat.lt_log2_self den
    rw [← Nat.cast_succ, zpow_natCast]; exact_mod_cast h
  have upper : (num : ℚ) / den < (2 : ℚ) ^ ((num.log2 : Int) - den.log2 + 1) := by
    rw [div_lt_iff₀ hd']
    calc (num : ℚ) < (2 : ℚ) ^ ((num.log2 : Int) + 1) := n2
      _ = (2 : ℚ) ^ ((num.log2 : Int) - den.log2 + 1) * (2 : ℚ) ^ (den.log2 : Int) := by
        rw [← zpow_add₀ (by norm_num)]; ring_nf
      _ ≤ _ := by gcongr
  have lower : (2 : ℚ) ^ ((num.log2 : Int) - den.log2 - 1) ≤ (num : ℚ) / den := by
    rw [le_div_iff₀ hd']
    calc (2 : ℚ) ^ ((num.log2 : Int) - den.log2 - 1) * den
        ≤ (2 : ℚ) ^ ((num.log2 : Int) - den.log2 - 1) * (2 : ℚ) ^ ((den.log2 : Int) + 1) := by gcongr
      _ = (2 : ℚ) ^ (num.log2 : Int) := by rw [← zpow_add₀ (by norm_num)]; ring_nf
      _ ≤ _ := n1
  unfold floorLog2
  simp only
  split
  · rename_i h
    exact ⟨(pow2LeRatio_iff hd _).1 h, upper⟩
  · rename_i h
    have h' := mt (pow2LeRatio_iff hd _).2 h
    refine ⟨lower, ?_⟩
    rw [sub_add_cancel]
    exact lt_of_not_ge h'

theorem divPow2_spec {num den : Nat} (hd : 0 < den) (k : Int) :
    0 < (divPow2 num den k).2 ∧
    ((divPow2 num den k).1 : ℚ) / (divPow2 num den k).2 = (num : ℚ) / den / (2 : ℚ) ^ k := by
  unfold divPow2
  split
  · rename_i h
    obtain ⟨n, rfl⟩ := Int.eq_ofNat_of_zero_le h
    refine ⟨by positivity, ?_⟩
    simp [div_div]
  · rename_i h
    obtain ⟨n, hn⟩ := Int.eq_ofNat_of_zero_le (show 0 ≤ -k by omega)
    obtain rfl : k = -(n : Int) := by omega
    refine ⟨hd, ?_⟩
    simp [zpow_neg, div_eq_mul_inv]
    ring

/-- The spec's rounding mode sends a tie up exactly from an odd integer (R6, R117). -/
@[simp] theorem tieGoesUp_iff (n : Nat) : tieGoesUp Config.rounding n = true ↔ n % 2 = 1 := by
  simp [tieGoesUp]

/-- Rounding to an integer is to nearest, and a tie goes to the even one. -/
theorem roundHalfEven_spec {num den : Nat} (hd : 0 < den) :
    |(roundHalfEven num den : ℚ) - (num : ℚ) / den| ≤ 1 / 2 ∧
    (|(roundHalfEven num den : ℚ) - (num : ℚ) / den| = 1 / 2 → roundHalfEven num den % 2 = 0) := by
  have hd' : (0 : ℚ) < den := by exact_mod_cast hd
  have hx : (num : ℚ) / den = (num / den : Nat) + ((num % den : Nat) : ℚ) / den := by
    rw [eq_comm, ← eq_sub_iff_add_eq']
    have : ((den * (num / den) + num % den : Nat) : ℚ) = num := by exact_mod_cast Nat.div_add_mod num den
    field_simp
    push_cast at this
    linarith
  have hr : ((num % den : Nat) : ℚ) / den < 1 := by
    rw [div_lt_one hd']; exact_mod_cast Nat.mod_lt _ hd
  have hr0 : 0 ≤ ((num % den : Nat) : ℚ) / den := by positivity
  unfold roundHalfEven
  simp only [tieGoesUp_iff]
  split
  · rename_i h
    have hge : (1 : ℚ) / 2 ≤ ((num % den : Nat) : ℚ) / den := by
      rw [div_le_div_iff₀ (by norm_num) hd']
      have : den ≤ 2 * (num % den) := by omega
      have : (den : ℚ) ≤ 2 * (num % den : Nat) := by exact_mod_cast this
      linarith
    have habs : |((num / den + 1 : Nat) : ℚ) - num / den| = 1 - ((num % den : Nat) : ℚ) / den := by
      rw [hx, abs_of_nonneg] <;> push_cast <;> linarith
    rw [habs]
    refine ⟨by linarith, fun heq => ?_⟩
    have : ((num % den : Nat) : ℚ) / den = 1 / 2 := by linarith
    rw [div_eq_div_iff hd'.ne' (by norm_num)] at this
    have : (num % den) * 2 = 1 * den := by exact_mod_cast this
    omega
  · rename_i h
    have hle : ((num % den : Nat) : ℚ) / den ≤ 1 / 2 := by
      rw [div_le_div_iff₀ hd' (by norm_num)]
      have : 2 * (num % den) ≤ den := by omega
      have : 2 * ((num % den : Nat) : ℚ) ≤ den := by exact_mod_cast this
      linarith
    have habs : |((num / den : Nat) : ℚ) - num / den| = ((num % den : Nat) : ℚ) / den := by
      rw [hx, abs_sub_comm, abs_of_nonneg] <;> linarith
    rw [habs]
    refine ⟨hle, fun heq => ?_⟩
    rw [div_eq_div_iff hd'.ne' (by norm_num)] at heq
    have : (num % den) * 2 = 1 * den := by exact_mod_cast heq
    omega

/-- Rounding to an integer depends on the ratio alone. -/
theorem roundHalfEven_congr {num den num' den' : Nat} (hd : 0 < den) (hd' : 0 < den')
    (h : (num : ℚ) / den = (num' : ℚ) / den') : roundHalfEven num den = roundHalfEven num' den' := by
  obtain ⟨a1, a2⟩ := roundHalfEven_spec (num := num) hd
  obtain ⟨b1, b2⟩ := roundHalfEven_spec (num := num') hd'
  rw [h] at a1 a2
  set n := roundHalfEven num den
  set m := roundHalfEven num' den'
  set x : ℚ := (num' : ℚ) / den'
  have hne : ∀ i j : Nat, |(i : ℚ) - x| ≤ 1 / 2 → (|(i : ℚ) - x| = 1 / 2 → i % 2 = 0) →
      |(j : ℚ) - x| ≤ 1 / 2 → (|(j : ℚ) - x| = 1 / 2 → j % 2 = 0) → ¬ i < j := by
    intro i j hi hi2 hj hj2 hij
    have hi' := abs_le.1 hi
    have hj' := abs_le.1 hj
    have hle : (j : ℚ) ≤ i + 1 := by linarith
    have hle' : j ≤ i + 1 := by exact_mod_cast hle
    obtain rfl : j = i + 1 := by omega
    have e1 : (i : ℚ) - x = -(1 / 2) := by push_cast at hj'; linarith
    have e2 : ((i + 1 : Nat) : ℚ) - x = 1 / 2 := by push_cast; linarith
    have p1 := hi2 (by rw [e1]; norm_num)
    have p2 := hj2 (by rw [e2]; norm_num)
    omega
  exact le_antisymm (not_lt.1 (hne m n b1 b2 a1 a2)) (not_lt.1 (hne n m a1 a2 b1 b2))

/-- Multiplying the ratio by a power of two moves the exponent and keeps the significand. -/
theorem roundedSig_mul_pow2 {num den num' den' : Nat} (hn : 0 < num) (hd : 0 < den) (hn' : 0 < num') (hd' : 0 < den') (k : Int)
    (h : (num' : ℚ) / den' = (num : ℚ) / den * (2 : ℚ) ^ k) :
    roundedSig num' den' = ((roundedSig num den).1, (roundedSig num den).2 + k) := by
  obtain ⟨a1, a2⟩ := floorLog2_spec hn hd
  obtain ⟨b1, b2⟩ := floorLog2_spec hn' hd'
  have hk : (0 : ℚ) < (2 : ℚ) ^ k := by positivity
  have he : floorLog2 num' den' = floorLog2 num den + k := by
    rw [h] at b1 b2
    have c1 : (2 : ℚ) ^ (floorLog2 num den + k) ≤ (num : ℚ) / den * (2 : ℚ) ^ k := by
      rw [zpow_add₀ (by norm_num)]; gcongr
    have c2 : (num : ℚ) / den * (2 : ℚ) ^ k < (2 : ℚ) ^ (floorLog2 num den + k + 1) := by
      rw [show floorLog2 num den + k + 1 = (floorLog2 num den + 1) + k by ring, zpow_add₀ (by norm_num)]; gcongr
    have d1 := (zpow_lt_zpow_iff_right₀ (by norm_num : (1 : ℚ) < 2)).1 (lt_of_le_of_lt c1 b2)
    have d2 := (zpow_lt_zpow_iff_right₀ (by norm_num : (1 : ℚ) < 2)).1 (lt_of_le_of_lt b1 c2)
    omega
  obtain ⟨m1, m2⟩ := divPow2_spec (num := num) hd (floorLog2 num den - 23)
  obtain ⟨m1', m2'⟩ := divPow2_spec (num := num') hd' (floorLog2 num' den' - 23)
  have hr := roundHalfEven_congr m1' m1 (by
    rw [m2, m2', h, he, show floorLog2 num den + k - 23 = (floorLog2 num den - 23) + k by ring, zpow_add₀ (by norm_num)]
    field_simp)
  have e1 : ∀ n d : Nat, roundedSig n d =
      if roundHalfEven (divPow2 n d (floorLog2 n d - 23)).1 (divPow2 n d (floorLog2 n d - 23)).2 = 2 ^ 24
      then (2 ^ 23, floorLog2 n d + 1)
      else (roundHalfEven (divPow2 n d (floorLog2 n d - 23)).1 (divPow2 n d (floorLog2 n d - 23)).2, floorLog2 n d) :=
    fun _ _ => rfl
  rw [e1, e1, hr, he]
  by_cases hc : roundHalfEven (divPow2 num den (floorLog2 num den - 23)).1 (divPow2 num den (floorLog2 num den - 23)).2 = 2 ^ 24
  · rw [if_pos hc, if_pos hc]
    simp only [Prod.mk.injEq, true_and]
    ring
  · rw [if_neg hc, if_neg hc]

/-- The rounded significand has 24 bits, and with its exponent it is within half a unit in the last place of the exact
value. -/
theorem roundedSig_spec {num den : Nat} (hn : 0 < num) (hd : 0 < den) :
    2 ^ 23 ≤ (roundedSig num den).1 ∧ (roundedSig num den).1 < 2 ^ 24 ∧
    (floorLog2 num den = (roundedSig num den).2 ∨ floorLog2 num den + 1 = (roundedSig num den).2) ∧
    |((roundedSig num den).1 : ℚ) * (2 : ℚ) ^ ((roundedSig num den).2 - 23) - (num : ℚ) / den|
      ≤ (2 : ℚ) ^ (floorLog2 num den - 24) := by
  obtain ⟨hlo, hhi⟩ := floorLog2_spec hn hd
  set e := floorLog2 num den with he
  obtain ⟨hmd, hm⟩ := divPow2_spec (num := num) hd (e - 23)
  obtain ⟨hround, -⟩ := roundHalfEven_spec (num := (divPow2 num den (e - 23)).1) hmd
  rw [hm] at hround
  set n := roundHalfEven (divPow2 num den (e - 23)).1 (divPow2 num den (e - 23)).2 with hn'
  have hp : (0 : ℚ) < (2 : ℚ) ^ (e - 23) := by positivity
  have h23 : (2 : ℚ) ^ 23 ≤ (num : ℚ) / den / (2 : ℚ) ^ (e - 23) := by
    rw [le_div_iff₀ hp, ← zpow_natCast, ← zpow_add₀ (by norm_num)]
    exact le_of_eq_of_le (by congr 1; push_cast; ring) hlo
  have h24 : (num : ℚ) / den / (2 : ℚ) ^ (e - 23) < (2 : ℚ) ^ 24 := by
    rw [div_lt_iff₀ hp, ← zpow_natCast, ← zpow_add₀ (by norm_num)]
    exact lt_of_lt_of_eq hhi (by congr 1; push_cast; ring)
  have herr : |(n : ℚ) * (2 : ℚ) ^ (e - 23) - (num : ℚ) / den| ≤ (2 : ℚ) ^ (e - 24) := by
    have h1 : (n : ℚ) * (2 : ℚ) ^ (e - 23) - (num : ℚ) / den
        = ((n : ℚ) - (num : ℚ) / den / (2 : ℚ) ^ (e - 23)) * (2 : ℚ) ^ (e - 23) := by
      field_simp
    have h2 : (2 : ℚ) ^ (e - 24) = 1 / 2 * (2 : ℚ) ^ (e - 23) := by
      rw [show e - 23 = (e - 24) + 1 by ring, zpow_add₀ (by norm_num)]; ring
    rw [h1, abs_mul, abs_of_pos hp, h2]
    gcongr
  have hnlo : 2 ^ 23 ≤ n := by
    have h := (abs_le.1 hround).1
    by_contra hc
    have : (n : ℚ) + 1 ≤ 2 ^ 23 := by exact_mod_cast (by omega : n + 1 ≤ 2 ^ 23)
    linarith
  have hnhi : n ≤ 2 ^ 24 := by
    have h := (abs_le.1 hround).2
    by_contra hc
    have : (2 : ℚ) ^ 24 + 1 ≤ n := by exact_mod_cast (by omega : 2 ^ 24 + 1 ≤ n)
    linarith
  unfold roundedSig
  simp only [← he, ← hn']
  split
  · rename_i heq
    refine ⟨le_refl _, by norm_num, .inr rfl, ?_⟩
    rw [heq] at herr
    convert herr using 2
    push_cast
    rw [show e + 1 - 23 = (e - 23) + 1 by ring, zpow_add₀ (by norm_num)]
    ring
  · exact ⟨hnlo, by omega, .inl rfl, herr⟩

/-- `RN32` of a non-zero rational whose rounded exponent is in the normal range: its pattern is normal and denotes the
rounded significand with the sign of the rational. -/
theorem rn32_val {x : ℚ} (hx : x ≠ 0) (h1 : -126 ≤ (roundedSig x.num.natAbs x.den).2)
    (h2 : (roundedSig x.num.natAbs x.den).2 ≤ 127) :
    b32Normal (rn32 x) = true ∧
    val (rn32 x) = (if x < 0 then -1 else 1) *
      (((roundedSig x.num.natAbs x.den).1 : ℚ) * (2 : ℚ) ^ ((roundedSig x.num.natAbs x.den).2 - 23)) := by
  have hn : 0 < x.num.natAbs := Int.natAbs_pos.2 (Rat.num_ne_zero.2 hx)
  obtain ⟨s1, s2, -, -⟩ := roundedSig_spec hn x.den_pos
  set r := roundedSig x.num.natAbs x.den with hr
  have hrn : rn32 x = packB32 (decide (x < 0)) (r.2 + 127).toNat (r.1 - 2 ^ 23) := by
    simp [rn32, hx, ← hr, h1, h2]
  have hv := val_packB32 (decide (x < 0)) (e := (r.2 + 127).toNat) (f := r.1 - 2 ^ 23)
    (by omega) (by omega) (by omega)
  rw [hrn]
  refine ⟨hv.1, hv.2.trans ?_⟩
  rw [Nat.cast_sub s1, Int.toNat_of_nonneg (by omega), show r.2 + 127 - 127 = (r.2 - 23) + 23 by ring,
    zpow_add₀ (by norm_num)]
  simp only [decide_eq_true_eq]
  norm_num
  ring_nf

theorem abs_eq_num_div_den (x : ℚ) : (x.num.natAbs : ℚ) / x.den = |x| := by
  rw [Nat.cast_natAbs, Int.cast_abs]
  nth_rewrite 3 [← Rat.num_div_den x]
  rw [abs_div, Nat.abs_cast]

/-- The exponent of R117 is the only one. -/
theorem floorLog2_unique {x : ℚ} (hx : x ≠ 0) {e : Int} (h1 : (2 : ℚ) ^ e ≤ |x|) (h2 : |x| < (2 : ℚ) ^ (e + 1)) :
    floorLog2 x.num.natAbs x.den = e := by
  have hn : 0 < x.num.natAbs := Int.natAbs_pos.2 (Rat.num_ne_zero.2 hx)
  obtain ⟨a1, a2⟩ := floorLog2_spec hn x.den_pos
  rw [abs_eq_num_div_den] at a1 a2
  have b1 := (zpow_lt_zpow_iff_right₀ (by norm_num : (1 : ℚ) < 2)).1 (lt_of_le_of_lt h1 a2)
  have b2 := (zpow_lt_zpow_iff_right₀ (by norm_num : (1 : ℚ) < 2)).1 (lt_of_le_of_lt a1 h2)
  omega

theorem rn32_zero : rn32 0 = 0#32 := by simp [rn32]

theorem val_zero : val 0#32 = 0 := by decide +kernel

/-- THE SPEC LEMMA OF `RN32`: in the normal range its pattern is normal and within half a unit in the last place. -/
theorem rn32_normal_half_ulp {x : ℚ} {e : Int} (h1 : (2 : ℚ) ^ e ≤ |x|) (h2 : |x| < (2 : ℚ) ^ (e + 1))
    (hlo : -126 ≤ e) (hhi : e ≤ 126) :
    b32Normal (rn32 x) = true ∧ |val (rn32 x) - x| ≤ (2 : ℚ) ^ (e - 24) := by
  have hx : x ≠ 0 := by
    rintro rfl
    have : (0 : ℚ) < (2 : ℚ) ^ e := by positivity
    simp at h1; linarith
  have hn : 0 < x.num.natAbs := Int.natAbs_pos.2 (Rat.num_ne_zero.2 hx)
  have he := floorLog2_unique hx h1 h2
  obtain ⟨-, -, s3, s4⟩ := roundedSig_spec hn x.den_pos
  rw [he] at s3 s4
  obtain ⟨hnorm, hv⟩ := rn32_val hx (by omega) (by omega)
  refine ⟨hnorm, ?_⟩
  rw [abs_eq_num_div_den] at s4
  rw [hv]
  split
  · rename_i hneg
    rw [abs_of_neg hneg] at s4
    rw [← abs_neg]
    convert s4 using 2
    ring
  · rename_i hpos
    rw [abs_of_nonneg (not_lt.1 hpos)] at s4
    rwa [one_mul]

/-- A rational with a significand of at most 24 bits is represented exactly. -/
theorem rn32_exact {x : ℚ} {e k : Int} {j : Int} (hj : x = (j : ℚ) * (2 : ℚ) ^ k) (hk : e - 23 ≤ k)
    (h1 : (2 : ℚ) ^ e ≤ |x|) (h2 : |x| < (2 : ℚ) ^ (e + 1)) (hlo : -126 ≤ e) (hhi : e ≤ 126) :
    val (rn32 x) = x := by
  have hx : x ≠ 0 := by
    rintro rfl
    have : (0 : ℚ) < (2 : ℚ) ^ e := by positivity
    simp at h1; linarith
  have hn : 0 < x.num.natAbs := Int.natAbs_pos.2 (Rat.num_ne_zero.2 hx)
  have he := floorLog2_unique hx h1 h2
  obtain ⟨-, -, s3, s4⟩ := roundedSig_spec hn x.den_pos
  rw [he] at s3 s4
  obtain ⟨-, hv⟩ := rn32_val hx (by omega) (by omega)
  rw [abs_eq_num_div_den] at s4
  set r := roundedSig x.num.natAbs x.den with hr
  -- both sides are integer multiples of 2^(e-23), less than one unit apart
  have hjabs : |x| = ((|j| * 2 ^ (k - (e - 23)).toNat : Int) : ℚ) * (2 : ℚ) ^ (e - 23) := by
    rw [hj, abs_mul, abs_of_pos (by positivity : (0 : ℚ) < (2 : ℚ) ^ k)]
    push_cast
    rw [mul_assoc, ← zpow_natCast, Int.toNat_of_nonneg (by omega), ← zpow_add₀ (by norm_num)]
    congr 2; ring
  have hrabs : (r.1 : ℚ) * (2 : ℚ) ^ (r.2 - 23)
      = (((r.1 : Int) * 2 ^ (r.2 - e).toNat : Int) : ℚ) * (2 : ℚ) ^ (e - 23) := by
    push_cast
    rw [mul_assoc, ← zpow_natCast, Int.toNat_of_nonneg (by omega), ← zpow_add₀ (by norm_num)]
    congr 2; ring
  have heq : (r.1 : ℚ) * (2 : ℚ) ^ (r.2 - 23) = |x| := by
    rw [hrabs, hjabs] at s4 ⊢
    rw [← sub_mul, abs_mul, abs_of_pos (by positivity : (0 : ℚ) < (2 : ℚ) ^ (e - 23)),
      show (2 : ℚ) ^ (e - 24) = 1 / 2 * (2 : ℚ) ^ (e - 23) by
        rw [show e - 23 = (e - 24) + 1 by ring, zpow_add₀ (by norm_num)]; ring] at s4
    have s5 := le_of_mul_le_mul_right s4 (by positivity : (0 : ℚ) < (2 : ℚ) ^ (e - 23))
    rw [← Int.cast_sub, ← Int.cast_abs] at s5
    have s6 : ((|(r.1 : Int) * 2 ^ (r.2 - e).toNat - |j| * 2 ^ (k - (e - 23)).toNat| : Int) : ℚ) < 1 := by linarith
    have s7 : |(r.1 : Int) * 2 ^ (r.2 - e).toNat - |j| * 2 ^ (k - (e - 23)).toNat| < 1 := by exact_mod_cast s6
    have s7 := Int.abs_lt_one_iff.1 s7
    rw [sub_eq_zero.1 s7]
  rw [hv, heq]
  split
  · rename_i hneg; rw [abs_of_neg hneg]; ring
  · rename_i hpos; rw [abs_of_nonneg (not_lt.1 hpos)]; ring

/-- `RN32` is odd: a non-zero rational and its negation differ in the sign bit alone, in the normal range. -/
theorem rn32_neg {x : ℚ} (hx : x ≠ 0) (h1 : -126 ≤ (roundedSig x.num.natAbs x.den).2)
    (h2 : (roundedSig x.num.natAbs x.den).2 ≤ 127) : rn32 (-x) = rn32 x ^^^ 0x80000000#32 := by
  have flip : ∀ (s : Bool) (e f : Nat), packB32 (!s) e f = packB32 s e f ^^^ packB32 true 0 0 := by
    intro s e f
    apply BitVec.eq_of_getLsbD_eq
    intro i hi
    simp only [BitVec.getLsbD_xor, getLsbD_packB32]
    split
    · simp
    · split
      · simp
      · obtain rfl : i = 31 := by omega
        cases s <;> rfl
  have hs : decide (-x < 0) = !decide (x < 0) := by
    rcases lt_or_gt_of_ne hx with h | h
    · simp [h, le_of_lt h]
    · simp [h, le_of_lt h]
  have htop : packB32 true 0 0 = 0x80000000#32 := by decide
  simp only [rn32, neg_eq_zero, hx, if_false, Rat.neg_num, Int.natAbs_neg, Rat.neg_den, h1, h2, and_self, if_true, hs]
  rw [flip, htop]

/-- Multiplying by a power of two moves the exponent field and nothing else, as long as both results are normal. -/
theorem rn32_mul_pow2 {x : ℚ} (hx : x ≠ 0) (k : Nat) (h1 : -126 ≤ (roundedSig x.num.natAbs x.den).2)
    (h2 : (roundedSig x.num.natAbs x.den).2 + k ≤ 127) :
    rn32 (x * 2 ^ k) = rn32 x + BitVec.ofNat 32 (k * 2 ^ 23) ∧ val (rn32 (x * 2 ^ k)) = val (rn32 x) * 2 ^ k := by
  have hk : (0 : ℚ) < 2 ^ k := by positivity
  have hy : x * 2 ^ k ≠ 0 := mul_ne_zero hx hk.ne'
  have hn : 0 < x.num.natAbs := Int.natAbs_pos.2 (Rat.num_ne_zero.2 hx)
  have hn' : 0 < (x * 2 ^ k).num.natAbs := Int.natAbs_pos.2 (Rat.num_ne_zero.2 hy)
  have hr := roundedSig_mul_pow2 hn x.den_pos hn' (x * 2 ^ k).den_pos (k : Int) (by
    rw [abs_eq_num_div_den, abs_eq_num_div_den, abs_mul, abs_of_pos hk, zpow_natCast])
  have hsign : (x * 2 ^ k < 0) = (x < 0) := by
    rw [eq_iff_iff]
    exact ⟨fun h => neg_of_mul_neg_left h hk.le, fun h => mul_neg_of_neg_of_pos h hk⟩
  obtain ⟨s1, s2, -, -⟩ := roundedSig_spec hn x.den_pos
  constructor
  · have pack : ∀ (s : Bool) (e f : Nat), e + k ≤ 254 → f < 2 ^ 23 →
        packB32 s (e + k) f = packB32 s e f + BitVec.ofNat 32 (k * 2 ^ 23) := by
      intro s e f he hf
      have toNat : ∀ e : Nat, e ≤ 254 → (packB32 s e f).toNat = s.toNat * 2 ^ 31 + e * 2 ^ 23 + f := by
        intro e he
        rw [show (packB32 s e f).toNat = (BitVec.ofBool s ++ BitVec.ofNat 8 e ++ BitVec.ofNat 23 f : BitVec (1 + 8 + 23)).toNat
          from rfl, BitVec.toNat_append, BitVec.toNat_append, ← Nat.shiftLeft_add_eq_or_of_lt (BitVec.isLt _),
          ← Nat.shiftLeft_add_eq_or_of_lt (BitVec.isLt _)]
        simp only [BitVec.toNat_ofNat, BitVec.toNat_ofBool, Nat.shiftLeft_eq, Nat.mod_eq_of_lt hf,
          Nat.mod_eq_of_lt (show e < 2 ^ 8 by omega)]
        ring
      apply BitVec.eq_of_toNat_eq
      rw [BitVec.toNat_add, toNat _ he, toNat e (by omega), BitVec.toNat_ofNat]
      have := Bool.toNat_le s
      rw [Nat.add_mod_mod, Nat.mod_eq_of_lt (by omega)]
      omega
    have e1 : rn32 x = packB32 (decide (x < 0)) ((roundedSig x.num.natAbs x.den).2 + 127).toNat
        ((roundedSig x.num.natAbs x.den).1 - 2 ^ 23) := by
      simp [rn32, hx, h1, show (roundedSig x.num.natAbs x.den).2 ≤ 127 by omega]
    have e2 : rn32 (x * 2 ^ k) = packB32 (decide (x < 0)) (((roundedSig x.num.natAbs x.den).2 + 127).toNat + k)
        ((roundedSig x.num.natAbs x.den).1 - 2 ^ 23) := by
      rw [rn32, if_neg hy]
      simp only [hr, hsign]
      rw [if_pos ⟨by omega, by omega⟩]
      congr 1
      omega
    rw [e1, e2]
    exact pack _ _ _ (by omega) (by omega)
  · obtain ⟨-, v1⟩ := rn32_val hx h1 (by omega)
    obtain ⟨-, v2⟩ := rn32_val hy (by rw [hr]; simp only; omega) (by rw [hr]; simp only; omega)
    rw [v1, v2, hr]
    simp only [hsign]
    rw [show (roundedSig x.num.natAbs x.den).2 + (k : Int) - 23 = ((roundedSig x.num.natAbs x.den).2 - 23) + k by ring,
      zpow_add₀ (by norm_num), zpow_natCast]
    ring

end Sys2Proof.Machine
end

