-- ==== Sys2Proof/Laws/State.lean ====
section
/-! SUPPORT. Sys2Proof/Laws/State.lean: one lemma per field per update of the state, each true by unfolding, so that no later
proof opens a record update. -/

namespace Sys2Proof.Machine

@[simp] theorem readFsr_eq (s : State) : readFsr s = s.fsr := rfl

@[simp] theorem writeFsr_fsr (c : RangeCode) (s : State) : (writeFsr c s).fsr = c := rfl
@[simp] theorem writeFsr_params (c : RangeCode) (s : State) : (writeFsr c s).params = s.params := rfl
@[simp] theorem writeFsr_pending (c : RangeCode) (s : State) : (writeFsr c s).pending = s.pending := rfl
@[simp] theorem writeFsr_responses (c : RangeCode) (s : State) : (writeFsr c s).responses = s.responses := rfl

@[simp] theorem respond_fsr (st : Status) (d : Option DecodeData) (s : State) : (respond st d s).fsr = s.fsr := rfl
@[simp] theorem respond_params (st : Status) (d : Option DecodeData) (s : State) : (respond st d s).params = s.params := rfl
@[simp] theorem respond_pending (st : Status) (d : Option DecodeData) (s : State) : (respond st d s).pending = s.pending := rfl
@[simp] theorem respond_responses (st : Status) (d : Option DecodeData) (s : State) :
    (respond st d s).responses = s.responses ++ [{ status := st, fsQ := s.fsr, data := d }] := rfl

@[simp] theorem resetBlock_fsr (s : State) : (resetBlock s).fsr = s.params.fsrReset := rfl
@[simp] theorem resetBlock_params (s : State) : (resetBlock s).params = s.params := rfl
@[simp] theorem resetBlock_pending (s : State) : (resetBlock s).pending = s.pending := rfl
@[simp] theorem resetBlock_responses (s : State) : (resetBlock s).responses = s.responses := rfl

@[simp] theorem presentNext_fsr (e : HostEvent) (s : State) : (presentNext e s).fsr = s.fsr := rfl
@[simp] theorem presentNext_params (e : HostEvent) (s : State) : (presentNext e s).params = s.params := rfl
@[simp] theorem presentNext_pending (e : HostEvent) (s : State) : (presentNext e s).pending = e :: s.pending := rfl
@[simp] theorem presentNext_responses (e : HostEvent) (s : State) : (presentNext e s).responses = s.responses := rfl

@[simp] theorem present_fsr (es : List HostEvent) (s : State) : (present es s).fsr = s.fsr := rfl
@[simp] theorem present_params (es : List HostEvent) (s : State) : (present es s).params = s.params := rfl
@[simp] theorem present_pending (es : List HostEvent) (s : State) : (present es s).pending = s.pending ++ es := rfl
@[simp] theorem present_responses (es : List HostEvent) (s : State) : (present es s).responses = s.responses := rfl

@[simp] theorem resetWith_fsr (p : Params) : (State.resetWith p).fsr = p.fsrReset := rfl
@[simp] theorem resetWith_params (p : Params) : (State.resetWith p).params = p := rfl
@[simp] theorem resetWith_pending (p : Params) : (State.resetWith p).pending = [] := rfl
@[simp] theorem resetWith_responses (p : Params) : (State.resetWith p).responses = [] := rfl

end Sys2Proof.Machine
end

