-- ==== Sys2Proof/Laws/Word.lean ====
section
/-! SUPPORT. Sys2Proof/Laws/Word.lean: the widths and the bounds of the block's patterns as numerals, for `omega` and `simp`, which
do not open the named constants of Word.lean. -/

namespace Sys2Proof

@[simp] theorem cmdBits_eq : Config.cmdBits = 8 := rfl
@[simp] theorem wordBits_eq : Config.wordBits = 16 := rfl
@[simp] theorem fsBits_eq : Config.fsBits = 2 := rfl
@[simp] theorem fxBits_eq : Config.fxBits = 20 := rfl
@[simp] theorem fxFracBits_eq : Config.fxFracBits = 15 := rfl
@[simp] theorem fsOffset_eq : Config.fsOffset = 4 := rfl

theorem cmd_lt (c : CmdByte) : c.toNat < 256 := c.isLt
theorem byte_lt (b : Byte) : b.toNat < 256 := b.isLt
theorem word_lt (w : Word16) : w.toNat < 65536 := w.isLt
theorem rangeCode_lt (c : RangeCode) : c.toNat < 4 := c.isLt

/-- The four range codes, for a case split. -/
theorem rangeCode_cases (c : RangeCode) : c = 0#2 ∨ c = 1#2 ∨ c = 2#2 ∨ c = 3#2 := by
  revert c; decide

/-- What a word denotes, from its value as a natural number (R11, R91). -/
theorem word_toInt (w : Word16) :
    w.toInt = if w.toNat < 32768 then (w.toNat : Int) else (w.toNat : Int) - 65536 := by
  have h : w.toInt = if 2 * w.toNat < 65536 then (w.toNat : Int) else (w.toNat : Int) - 65536 :=
    BitVec.toInt_eq_toNat_cond w
  rw [h]
  split <;> split <;> omega

/-- Within the domain of `tc_16` an integer is read back from its pattern (R11). -/
theorem tcN_word_toInt {v : Int} (h1 : -32768 ≤ v) (h2 : v ≤ 32767) : (Machine.tcN Config.wordBits v).toInt = v := by
  have h : (Machine.tcN Config.wordBits v).toInt = v.bmod 65536 := BitVec.toInt_ofInt _
  rw [h, Int.bmod_eq_of_le] <;> omega

/-- Within the domain of `tc_20` an integer is read back from its pattern (R11, R113). -/
theorem tcN_fx_toInt {i : Int} (h1 : -524288 ≤ i) (h2 : i ≤ 524287) : (Machine.tcN Config.fxBits i).toInt = i := by
  have h : (Machine.tcN Config.fxBits i).toInt = i.bmod 1048576 := BitVec.toInt_ofInt _
  rw [h, Int.bmod_eq_of_le] <;> omega

/-- The sample domain: every word's integer lies in it (R91). -/
theorem sext16_bounds (w : Word16) : -32768 ≤ Machine.sext16 w ∧ Machine.sext16 w ≤ 32767 := by
  have h := word_lt w
  rw [Machine.sext16, word_toInt]
  split <;> omega

end Sys2Proof
end

