-- ==== Sys2Proof/Laws/Ops.lean ====
section
/-! SUPPORT. Sys2Proof/Laws/Ops.lean: what each shared operation can do, said once: `MemRead`, `raise`, taking an event, the
decoder and the operand forms. Callers cite these and do not unfold the operations. -/

namespace Sys2Proof.Machine

@[simp] theorem axisLow_x (raw : RawSample) : axisLow raw .x = raw.b0 := rfl
@[simp] theorem axisLow_y (raw : RawSample) : axisLow raw .y = raw.b2 := rfl
@[simp] theorem axisLow_z (raw : RawSample) : axisLow raw .z = raw.b4 := rfl
@[simp] theorem axisHigh_x (raw : RawSample) : axisHigh raw .x = raw.b1 := rfl
@[simp] theorem axisHigh_y (raw : RawSample) : axisHigh raw .y = raw.b3 := rfl
@[simp] theorem axisHigh_z (raw : RawSample) : axisHigh raw .z = raw.b5 := rfl

/-- `MemRead(2a, 2)` is the low byte and the high byte of axis `a` (R40, R42). -/
theorem memRead_axis (raw : RawSample) (a : Axis) :
    memRead raw (2 * (axisIndex a).val) 2 = some [axisLow raw a, axisHigh raw a] := by
  cases a <;> rfl

/-- `RAW` is two bytes per axis (R6, R40). -/
theorem rawList_length (raw : RawSample) : (rawList raw).length = Config.rawBytes ∧ Config.rawBytes = 2 * Config.nAxes :=
  ⟨rfl, rfl⟩

/-- There is no byte outside the indices 0 to 5 (R40). -/
theorem memRead_outside (raw : RawSample) {k n : Nat} (h : 6 < k + n) : memRead raw k n = none := by
  simp [memRead]; omega

/-- `raise` always answers a next state: the response with its status and without data, nothing else changed (R206). -/
theorem raiseError_eq (e : ErrorCause) (s : State) :
    raiseError e s = .next { s with responses := s.responses ++ [{ status := errorStatus e, fsQ := s.fsr, data := none }] } :=
  rfl

/-- An event is taken exactly when one is waiting. -/
theorem takeEvent_eq_none_iff (s : State) : takeEvent s = none ↔ s.pending = [] := by
  unfold takeEvent; split <;> simp_all

theorem takeEvent_cons {s : State} {e : HostEvent} {rest : List HostEvent} (h : s.pending = e :: rest) :
    takeEvent s = some (e, { s with pending := rest }) := by
  unfold takeEvent; split <;> simp_all

/-- The decoder inverted: a beat decodes to one of three commands, by the row its byte hits, or is refused (R62). -/
theorem decodeBeat_cases (b : CommandBeat) :
    (b.cmd = 0x00#8 ∧ decodeBeat b = .ok .nop) ∨
    (b.cmd &&& 0xCE#8 = 0x40#8 ∧ decodeBeat b = .ok (.setfs (cmdFs b.cmd) (cmdXerr b.cmd))) ∨
    (b.cmd &&& 0xFE#8 = 0x80#8 ∧ decodeBeat b = .ok (.decode (cmdXerr b.cmd) b.raw)) ∨
    (b.wf = false ∧ decodeBeat b = .error (rejectCause b.cmd)) := by
  obtain ⟨cmd, raw⟩ := b
  have legal : ∀ c : CmdByte, rowHits rowNop c = false → rowHits rowSetfs c = false → rowHits rowDecode c = false →
      legalCmds.contains c = false := by decide
  have nop : ∀ c : CmdByte, rowHits rowNop c = true → c = 0x00#8 := by decide
  unfold decodeBeat
  split
  · rename_i h
    exact .inl ⟨nop cmd h, rfl⟩
  · rename_i h1
    split
    · rename_i h
      exact .inr (.inl ⟨by simpa [rowHits, rowSetfs] using h, rfl⟩)
    · rename_i h2
      split
      · rename_i h
        exact .inr (.inr (.inl ⟨by simpa [rowHits, rowDecode] using h, rfl⟩))
      · rename_i h3
        exact .inr (.inr (.inr ⟨legal cmd (by simpa using h1) (by simpa using h2) (by simpa using h3), rfl⟩))

/-- A word is its high byte times 256 plus its low byte (R90, R41). -/
theorem unpack_eq_append (lo hi : Byte) : unpack lo hi = hi ++ lo := by
  apply BitVec.eq_of_getLsbD_eq
  intro i hi'
  rw [show (hi ++ lo : BitVec (8 + 8)).getLsbD i = if i < 8 then lo.getLsbD i else hi.getLsbD (i - 8) from
    BitVec.getLsbD_append]
  simp only [unpack, BitVec.getLsbD_or, BitVec.getLsbD_shiftLeft, BitVec.getLsbD_setWidth]
  by_cases h : i < 8
  · simp [h]; omega
  · have h2 : lo.getLsbD i = false := BitVec.getLsbD_of_ge lo i (by omega)
    have h16 : i < 16 := hi'
    simp [h, h2, h16, show i - 8 < 16 by omega]

end Sys2Proof.Machine
end

