-- ==== Sys2Proof/Laws/PerInstr.lean ====
section
/-! SUPPORT. Sys2Proof/Laws/PerInstr.lean: the family EncodesLegal: the encoding of every command is a well-formed beat, one of the
eleven legal bytes of R62. -/

namespace Sys2Proof.Laws.EncodesLegal

open Sys2Proof

/-- The encoder writes a legal command byte (R62). -/
def Statement (i : Instr) : Prop := (encode i).wf = true

theorem nop : Statement .nop := by unfold Statement; decide

theorem setfs (c : RangeCode) (xerr : Bool) : Statement (.setfs c xerr) := by
  have h : ∀ (c : RangeCode) (xerr : Bool), legalCmds.contains (packCmd 0b01#2 c xerr) = true := by decide
  exact h c xerr

theorem decode (xerr : Bool) (raw : RawSample) : Statement (.decode xerr raw) := by
  have h : ∀ xerr : Bool, legalCmds.contains (packCmd 0b10#2 0#2 xerr) = true := by decide
  exact h xerr

end Sys2Proof.Laws.EncodesLegal
end

