-- ==== Sys2Proof/Laws/Step.lean ====
section
/-! SUPPORT. Sys2Proof/Laws/Step.lean: what a command and a step can do, said once. Invariants and frames follow from
`exec_answers` and `step_cases` without unfolding a meaning. -/

namespace Sys2Proof.Machine

/-- Every command answers a next state: it may write `FSR` (only a successful SETFS) and adds one response. -/
theorem exec_answers (i : Instr) (s : State) :
    ∃ st d c, exec i s = .next (respond st d (writeFsr c s)) ∧
      ((c = s.fsr ∧ ∀ k, i ≠ .setfs k false) ∨ i = .setfs c false) := by
  cases i with
  | nop => exact ⟨.ok, none, s.fsr, rfl, .inl ⟨rfl, by simp⟩⟩
  | setfs c xerr =>
    cases xerr with
    | false => exact ⟨.ok, none, c, rfl, .inr rfl⟩
    | true => exact ⟨.busError, none, s.fsr, rfl, .inl ⟨rfl, by simp⟩⟩
  | decode xerr raw =>
    cases xerr with
    | false => exact ⟨.ok, some (decodeLanes s.params.scaleEval s.fsr raw), s.fsr, rfl, .inl ⟨rfl, by simp⟩⟩
    | true => exact ⟨.busError, none, s.fsr, rfl, .inl ⟨rfl, by simp⟩⟩

/-- Every way a step can go. -/
theorem step_cases (s : State) :
    (s.pending = [] ∧ step s = .fault .noCommandBeat) ∨
    (∃ rest, s.pending = .reset :: rest ∧ step s = .next (resetBlock { s with pending := rest })) ∨
    (∃ b rest i, s.pending = .beat b :: rest ∧ decodeBeat b = .ok i ∧ step s = exec i { s with pending := rest }) ∨
    (∃ b rest e, s.pending = .beat b :: rest ∧ decodeBeat b = .error e ∧
      step s = raiseError .illegalCommand { s with pending := rest }) := by
  cases hp : s.pending with
  | nil => exact .inl ⟨rfl, by simp [step, (takeEvent_eq_none_iff s).2 hp]⟩
  | cons e rest =>
    have ht := takeEvent_cons hp
    cases e with
    | reset => exact .inr (.inl ⟨rest, rfl, by simp [step, ht]⟩)
    | beat b =>
      cases hd : decodeBeat b with
      | ok i => exact .inr (.inr (.inl ⟨b, rest, i, rfl, hd, by simp [step, ht, hd]⟩))
      | error e => exact .inr (.inr (.inr ⟨b, rest, e, rfl, hd, by simp [step, ht, hd]⟩))

end Sys2Proof.Machine
end

