-- ==== Sys2Proof/Tests/Slice0.lean ====
section
/-! SUPPORT. Sys2Proof/Tests/Slice0.lean: small tests whose expected results are copied from spec/95_test_vectors.md and the
worked examples of the rules, the smoke tests of the well-formedness checks, and one witness for every statement that has
hypotheses. -/

namespace Sys2Proof.Tests

open Sys2Proof Sys2Proof.Machine Sys2Proof.Safety

/-! ### Well-formedness: for each check, a term it refuses -/

theorem test_beat_reserved_op_refused : CommandBeat.wf { cmd := 0xC0#8, raw := zeroRaw } = false := by decide
theorem test_beat_reserved_bit_refused : CommandBeat.wf { cmd := 0x42#8, raw := zeroRaw } = false := by decide
theorem test_setfs_code_refused : AsmLine.wf (.setfs 4 false) = false := by decide
theorem test_decode_five_bytes_refused : AsmLine.wf (.decode [0, 0, 0, 0, 0]) = false := by decide
theorem test_decode_wide_byte_refused : AsmLine.wf (.decode [0, 0, 0, 0, 0, 256]) = false := by decide
theorem test_beat_wide_cmd_refused : AsmLine.wf (.beat 256 [0, 0, 0, 0, 0, 0]) = false := by decide
theorem test_beat_seven_bytes_refused : AsmLine.wf (.beat 0 [0, 0, 0, 0, 0, 0, 0]) = false := by decide
theorem test_setfsG_three_refused : AsmLine.wf (.setfsG 3 false) = false := by decide
theorem test_decodew_x_refused : AsmLine.wf (.decodew 32768 0 0) = false := by decide
theorem test_decodew_z_refused : AsmLine.wf (.decodew 0 0 (-32769)) = false := by decide
theorem test_params_no_sig_bits_refused : Params.wf { fsrReset := 0#2, scaleEval := .exactRn, sigBits := 0 } = false := by decide
theorem test_params_sig_bits_17_refused : Params.wf { fsrReset := 0#2, scaleEval := .exactRn, sigBits := 17 } = false := by decide

/-! ### Decoding: words written out bit by bit from R61 and R62 (spec/95_test_vectors.md section 2) -/

theorem test_decode_word_nop : decodeTableWord 8 0b00000000 = some .nop := by decide
theorem test_decode_word_setfs : decodeTableWord 8 0b01100001 = some (.setfs 2#2 true) := by decide
theorem test_decode_word_decode : decodeTableWord 8 0b10000000 = some (.decode false zeroRaw) := by decide
/-- The beat `80 00 40 00 C0 00 00` of R142's worked example, first byte least significant. -/
theorem test_decode_word_with_raw : decodeTableWord 56 0x0000C000400080 =
    some (.decode false { b0 := 0x00#8, b1 := 0x40#8, b2 := 0x00#8, b3 := 0xC0#8, b4 := 0x00#8, b5 := 0x00#8 }) := by decide
theorem test_decode_word_failed_nop_refused : decodeTableWord 8 0b00000001 = none := by decide
theorem test_reject_causes :
    [0xC1#8, 0x10#8, 0x7F#8, 0xB1#8].map (fun c => decodeBeat { cmd := c, raw := zeroRaw }) =
      [.error .reservedOp, .error .nopFieldsNonzero, .error .setfsReservedNonzero, .error .decodeFieldsNonzero] := by decide
/-- R63's count: 256 - 11 = 245 illegal bytes. -/
theorem test_illegal_count :
    ((List.range 256).filter fun n => !(CommandBeat.wf { cmd := BitVec.ofNat 8 n, raw := zeroRaw })).length = 245 := by
  decide +kernel

/-- Program P7: `SETFS.G 8` is `60 ..`, `DECODEW 4096, -2048, 1` is `80 00 10 00 F8 01 00`. -/
theorem test_assemble_pseudos :
    (assemble (.setfsG 8 false)).map beatBytes = some [0x60#8, 0x00#8, 0x00#8, 0x00#8, 0x00#8, 0x00#8, 0x00#8] ∧
    (assemble (.decodew 4096 (-2048) 1)).map beatBytes =
      some [0x80#8, 0x00#8, 0x10#8, 0x00#8, 0xF8#8, 0x01#8, 0x00#8] := by decide

/-! ### Stages (spec/95_test_vectors.md sections 3 and 4) -/

theorem test_unpack_byte_order : sext16 (unpack 0x34#8 0x12#8) = 4660 ∧ sext16 (unpack 0x00#8 0x80#8) = -32768 ∧
    sext16 (unpack 0x80#8 0x00#8) = 128 := by decide
theorem test_view_floors : (s12 0xFFEF#16).toInt = -2 ∧ pad 0xFFEF#16 = 15#4 ∧ s12 0x4010#16 = 0x401#12 := by decide
theorem test_fx_negative : fxPattern (-17) 0 = 0xFFFDE#20 ∧ fxPattern (-32768) 3 = 0x80000#20 := by decide
/-- R115: the binary32 constants of EVAL-A. -/
theorem test_b32_of_int : b32OfInt (-32768) = 0xC7000000#32 ∧ b32OfInt 32767 = 0x46FFFE00#32 ∧
    b32OfInt 65535 = 0x477FFF00#32 := by decide +kernel
/-- Program P5, lane x: a tie goes to the even fraction. -/
theorem test_scaleA_tie : scaleA (-32576) 0 = 0xBFFE7FFE#32 := by decide +kernel
/-- The largest distance between the evaluations, at v = 127. -/
theorem test_evaluations_at_127 : scaleA 127 0 = 0x3BFF0000#32 ∧ scaleB 127 0 = 0x3BFF00FF#32 := by decide +kernel

/-! ### One step of each command (spec/95_test_vectors.md section 6, programs P2, P3) -/

/-- The block with a stored selection and one beat presented, otherwise as after reset. -/
def demo (c : RangeCode) (cmd : CmdByte) (raw : RawSample) : State :=
  { State.reset with fsr := c, pending := [.beat { cmd, raw }] }

/-- `FSR` and the last response after a step. -/
def seen (o : Host.Outcome State Fault Refusal) : Option (RangeCode × Option ResponseBeat) :=
  match o with
  | .next t => some (t.fsr, t.responses.getLast?)
  | _ => none

/-- `AA BB CC DD EE FF`, to be ignored. -/
def noise : RawSample := { b0 := 0xAA#8, b1 := 0xBB#8, b2 := 0xCC#8, b3 := 0xDD#8, b4 := 0xEE#8, b5 := 0xFF#8 }

theorem test_nop : seen (step (demo 2#2 0x00#8 noise)) =
    some (2#2, some { status := .ok, fsQ := 2#2, data := none }) := by decide
theorem test_setfs_commits : seen (step (demo 0#2 0x70#8 zeroRaw)) =
    some (3#2, some { status := .ok, fsQ := 3#2, data := none }) := by decide
theorem test_setfs_fail_keeps : seen (step (demo 1#2 0x61#8 noise)) =
    some (1#2, some { status := .busError, fsQ := 1#2, data := none }) := by decide
/-- Program P2: `80 FF 7F 00 80 F0 FF` at 16 g. -/
theorem test_decode_extremes :
    seen (step (demo 3#2 0x80#8 { b0 := 0xFF#8, b1 := 0x7F#8, b2 := 0x00#8, b3 := 0x80#8, b4 := 0xF0#8, b5 := 0xFF#8 })) =
      some (3#2, some { status := .ok, fsQ := 3#2, data := some {
        x := { w16 := 0x7FFF#16, fx := 0x7FFF0#20, f32 := 0x41800000#32 }
        y := { w16 := 0x8000#16, fx := 0x80000#20, f32 := 0xC1800000#32 }
        z := { w16 := 0xFFF0#16, fx := 0xFFF00#20, f32 := 0xBBF80000#32 } } }) := by decide +kernel
theorem test_decode_fail_all_or_nothing : seen (step (demo 3#2 0x81#8 noise)) =
    some (3#2, some { status := .busError, fsQ := 3#2, data := none }) := by decide
/-- R205: 0x91 has bit 0 set and is still `IllegalCommand`. -/
theorem test_illegal_priority : seen (step (demo 1#2 0x91#8 noise)) =
    some (1#2, some { status := .illegalCommand, fsQ := 1#2, data := none }) := by decide
/-- Program P7: reset forgets the range and gives no response. -/
theorem test_reset_event : seen (step { State.reset with fsr := 2#2, pending := [.reset] }) = some (0#2, none) := by decide
/-- A placed word runs as the first command after reset. -/
theorem test_placed_word : seen (step (State.reset.withFetchWord 8 0x60)) =
    some (2#2, some { status := .ok, fsQ := 2#2, data := none }) := by decide

/-! ### The driver's field function (spec/95_test_vectors.md section 6, context) -/

theorem test_apply_field : applyField 0x07#8 dataRateField 9 = some 0x97#8 ∧ powerOffByte 0x97#8 = some 0x07#8 ∧
    fullScaleByte 0x00#8 3#2 = some 0x30#8 ∧ fullScaleByte 0xFF#8 0#2 = some 0xCF#8 ∧
    fullScaleByte 0x88#8 2#2 = some 0xA8#8 := by decide

/-! ### Witnesses: for every statement with hypotheses, states and operands that meet them -/

theorem witness_ResetSetsFsrToItsParameter : (∃ p : Params, p.fsrReset = 3#2) ∧
    ({ State.reset with pending := [.reset] } : State).pending = .reset :: [] := ⟨⟨⟨3#2, .exactRn, 1⟩, rfl⟩, rfl⟩
theorem witness_InvariantHoldsAtReset :
    Params.wf ⟨3#2, .exactRn, 1⟩ = true ∧ Params.wf ⟨0#2, .b32Stepwise, 16⟩ = true := by decide
theorem witness_OpcodeMapByMaskAndMatch :
    0x00#8 &&& 0xFF#8 = 0x00#8 ∧ 0x71#8 &&& 0xCE#8 = 0x40#8 ∧ 0x81#8 &&& 0xFE#8 = 0x80#8 := by decide
theorem witness_EncodeInvertsDecode : decodeBeat { cmd := 0x00#8, raw := noise } = .ok .nop ∧
    decodeBeat { cmd := 0x81#8, raw := noise } = .ok (.decode true noise) := by decide
theorem witness_PseudoCommandsExpand :
    (-32768 : Int) ≤ -32768 ∧ (-32768 : Int) ≤ 32767 ∧ (32767 : Int) ≤ 32767 ∧ (-1 : Int) ≤ 32767 ∧ (-32768 : Int) ≤ -1 := by decide
theorem witness_StepRunsTheDecodedCommand : (demo 1#2 0x71#8 noise).pending = .beat { cmd := 0x71#8, raw := noise } :: [] ∧
    decodeBeat { cmd := 0x71#8, raw := noise } = .ok (.setfs 3#2 true) := by decide
theorem witness_PlacedWordIsRunNext : decodeTableWord 8 0x81 = some (.decode true zeroRaw) := by decide
theorem witness_StepStopsOnlyWhenNothingIsPresented : State.reset.pending = [] ∧ (demo 0#2 0xFF#8 noise).pending ≠ [] := by decide
theorem witness_ReservedByteAnswersIllegalCommand :
    0xC0 ≤ (0xC0#8).toNat ∧ (0x42#8).extractLsb' 1 3 ≠ 0#3 ∧ (0x01 ≤ (0x01#8).toNat ∧ (0x3F#8).toNat ≤ 0x3F) ∧
    (0x90 ≤ (0x90#8).toNat ∧ (0xBF#8).toNat ≤ 0xBF) ∧
    (∀ c ∈ legalCmds, ¬ (0xC0 ≤ c.toNat ∨ c.extractLsb' 1 3 ≠ 0#3 ∨ (0x01 ≤ c.toNat ∧ c.toNat ≤ 0x3F) ∨
      (0x90 ≤ c.toNat ∧ c.toNat ≤ 0xBF))) ∧
    (demo 1#2 0xC0#8 noise).pending = .beat { cmd := 0xC0#8, raw := noise } :: [] := by decide
theorem witness_EveryBeatYieldsOneResponse : (demo 2#2 0x80#8 noise).params.scaleEval = .b32Stepwise ∧
    (demo 2#2 0x80#8 noise).fsr = 2#2 ∧ (demo 2#2 0x80#8 noise).pending = .beat { cmd := 0x80#8, raw := noise } :: [] := by decide
theorem witness_UnusedInputsAreIgnored : 0x81#8 ≠ 0x80#8 ∧ 0x00#8 ≠ 0x80#8 ∧ 0xC0#8 ≠ 0x80#8 := by decide
theorem witness_FailedCommandActsAsNop :
    step (demo 1#2 0x81#8 noise) =
      .next { State.reset with fsr := 1#2, responses := [{ status := .busError, fsQ := 1#2, data := none }] } ∧
    Status.busError ≠ .ok := ⟨by rfl, by decide⟩
theorem witness_StatusOfEveryCommandByte :
    (demo 1#2 0x00#8 noise).pending = .beat { cmd := 0x00#8, raw := noise } :: [] ∧
    step (demo 1#2 0x00#8 noise) =
      .next { State.reset with fsr := 1#2, responses := (demo 1#2 0x00#8 noise).responses ++
        [{ status := .ok, fsQ := 1#2, data := none }] } := ⟨rfl, by rfl⟩
theorem witness_DataPresentExactlyOnSuccessfulDecode :
    (demo 1#2 0x80#8 noise).pending = .beat { cmd := 0x80#8, raw := noise } :: [] ∧
    ∃ t r, step (demo 1#2 0x80#8 noise) = .next t ∧ t.responses = (demo 1#2 0x80#8 noise).responses ++ [r] ∧
      r.data.isSome = true := ⟨rfl, _, _, rfl, rfl, rfl⟩
theorem witness_DecodeDeliversThreeScaledAxes : State.reset.params.scaleEval = .b32Stepwise ∧
    (State.resetWith ⟨0#2, .exactRn, 12⟩).params.scaleEval = .exactRn := ⟨rfl, rfl⟩
theorem witness_LanesAreIndependent : (State.resetWith ⟨0#2, .exactRn, 12⟩).params.scaleEval = .exactRn := rfl
theorem witness_FrameOfEveryCommand :
    (∃ t, exec .nop State.reset = .next t) ∧ (∃ t, exec (.setfs 3#2 false) State.reset = .next t) ∧
    (∃ t, exec (.setfs 3#2 true) State.reset = .next t) ∧ (∃ t, exec (.decode false noise) State.reset = .next t) ∧
    (∃ t, exec (.decode true noise) State.reset = .next t) := ⟨⟨_, rfl⟩, ⟨_, rfl⟩, ⟨_, rfl⟩, ⟨_, rfl⟩, ⟨_, rfl⟩⟩
theorem witness_OnlySetfsAndResetWriteFsr :
    (∃ t, step { State.reset with fsr := 2#2, pending := [.reset] } = .next t ∧ t.fsr ≠ 2#2) ∧
    ∃ t, step (demo 0#2 0x70#8 noise) = .next t ∧ t.fsr ≠ (demo 0#2 0x70#8 noise).fsr :=
  ⟨⟨_, rfl, by decide⟩, ⟨_, rfl, by decide⟩⟩
theorem witness_SextReadsTwosComplement : 16 < 17 ∧ 16 < 17 ∧ (15 < 17 ∧ 15 < 16) ∧ ¬ 16 < 16 := by decide
theorem witness_UnpackThenSextIsABijection : (-32768 : Int) ≤ -32768 ∧ (32767 : Int) ≤ 32767 ∧
    sext16 (unpack 0x00#8 0x80#8) = -32768 ∧ sext16 (unpack 0xFF#8 0x7F#8) = 32767 := by decide
theorem witness_SampleViewSplitsTheWord : (1 ≤ 1 ∧ 1 ≤ 16) ∧ (1 ≤ 16 ∧ 16 ≤ 16) ∧ pad 0x8000#16 = 0#4 := by decide
theorem witness_FixedPointProductIsExact : ((-32768 : Int) ≤ -32768 ∧ (-32768 : Int) ≤ 32767) ∧
    ((-32768 : Int) ≤ 32767 ∧ (32767 : Int) ≤ 32767) ∧ 3 < (3#2).toNat + 1 := by decide
/-- The sample domain `-32768 <= v <= 32767`, met by both ends and by 0. -/
theorem witness_sample_domain : ∀ v ∈ [(-32768 : Int), 0, 32767], -32768 ≤ v ∧ v ≤ 32767 := by decide
theorem witness_LawExceedsRatioByAtMostOneCount : (-32768 : Int) ≤ 0 ∧ (0 : Int) ≤ 32767 := by decide
theorem witness_ScaleLawIsDyadicOnlyAtEndPoints : (-32768 : Int) ≤ 1 ∧ (1 : Int) ≤ 32767 := by decide
theorem witness_RoundingIsToNearestTiesToEven :
    ((2 : ℚ) ^ (0 : Int) ≤ |(3 / 2 : ℚ)| ∧ |(3 / 2 : ℚ)| < (2 : ℚ) ^ ((0 : Int) + 1)) ∧ (-126 : Int) ≤ 0 ∧ (0 : Int) ≤ 126 ∧
    b32Normal 0x3F800000#32 = true := by
  refine ⟨⟨?_, ?_⟩, by decide, by decide, by decide⟩ <;> norm_num [abs_of_pos]
/-- The ends of the exponent range. -/
theorem witness_RoundingIsToNearestTiesToEven_ends : ∀ e ∈ [(-126 : Int), 126],
    (2 : ℚ) ^ e ≤ |(2 : ℚ) ^ e| ∧ |(2 : ℚ) ^ e| < (2 : ℚ) ^ (e + 1) := by
  intro e _
  rw [abs_of_pos (by positivity)]
  exact ⟨le_refl _, zpow_lt_zpow_right₀ (by norm_num) (by omega)⟩
/-- The tie clause: 1 + 2^-24 lies half way between 1 and its successor. -/
theorem witness_RoundingIsToNearestTiesToEven_tie :
    |val (rn32 (16777217 / 16777216)) - 16777217 / 16777216| = |val 0x3F800001#32 - 16777217 / 16777216| ∧
    val 0x3F800001#32 ≠ val (rn32 (16777217 / 16777216)) := by decide +kernel
theorem witness_NormalNumbersRoundToThemselves :
    b32Normal 0x00800000#32 = true ∧ b32Normal 0x7F7FFFFF#32 = true ∧ b32Normal 0xC0000000#32 = true := by decide
theorem witness_StepwiseEvaluationRoundsTwice : (-32768 : Int) ≤ -16417 ∧ (-16417 : Int) ≤ 32767 := by decide
theorem witness_SecondRoundingIsExactAboveHalfScale : (-16384 : Int) ≤ -16384 ∧ (-16384 : Int) ≤ 32767 := by decide
theorem witness_ResultsEqualTheLawOnlyAtEndPoints : (-32768 : Int) ≤ 32766 ∧ (32766 : Int) ≤ 32767 := by decide
theorem witness_StepwiseEvaluationError : (-32768 : Int) ≤ -32576 ∧ (-32576 : Int) ≤ 32767 := by decide
theorem witness_ExactEvaluationError : (-32768 : Int) ≤ 127 ∧ (127 : Int) ≤ 32767 := by decide
theorem witness_EvaluationsDifferByAtMost : (-32768 : Int) ≤ 127 ∧ (127 : Int) ≤ 32767 := by decide
theorem witness_ResultsWithinOneCountOfTheRatio : (-32768 : Int) ≤ 32767 ∧ (32767 : Int) ≤ 32767 := by decide
theorem witness_ResultSignFollowsTheSample : (-32768 : Int) ≤ -1 ∧ (-1 : Int) ≤ 32767 ∧ (0 : Int) ≤ 0 := by decide
theorem witness_ResultsStrictlyIncrease : (-32768 : Int) ≤ -1 ∧ (-1 : Int) < 0 ∧ (0 : Int) ≤ 32767 := by decide
theorem witness_RangeChangesOnlyTheExponent : (-32768 : Int) ≤ -32704 ∧ (-32704 : Int) ≤ 32767 := by decide
theorem witness_ResultsAreNormalNumbers : (-32768 : Int) ≤ 0 ∧ (0 : Int) ≤ 32767 := by decide
theorem witness_ExactEvaluationIsOdd : (-32768 : Int) ≤ 32767 ∧ (32767 : Int) ≤ 32767 := by decide
theorem witness_StepRefinesTheSpecStep : (demo 3#2 0x80#8 noise).pending = .beat { cmd := 0x80#8, raw := noise } :: [] := rfl
theorem witness_FsrIsTheLatestCommit : 1 ≤ (demo 0#2 0x70#8 noise).pending.length := by decide
theorem witness_EveryStepKeepsTheInvariant :
    Inv (demo 3#2 0x80#8 noise) ∧ ∃ t, step (demo 3#2 0x80#8 noise) = .next t :=
  ⟨⟨by decide, by simp [demo, State.reset, State.resetWith]⟩, ⟨_, rfl⟩⟩
theorem witness_ApplyFieldIsSurgical :
    (dataRateField.offset + dataRateField.width ≤ 8 ∧ 15 < 2 ^ dataRateField.width) ∧
    ¬ (fullScaleField.offset + fullScaleField.width ≤ 8 ∧ 4 < 2 ^ fullScaleField.width) := by decide
theorem witness_PowerTransitionsDoNotDisturbTheBlock :
    (∀ call ∈ [DriverCall.powerOn true, .powerOff true, .toggleFifo true false], driverEvents call = []) ∧
    (demo 2#2 0x80#8 noise).pending =
      ([DriverCall.powerOn true, .powerOff true, .toggleFifo true false] ++ [DriverCall.read (some noise)]).flatMap driverEvents := by
  decide
theorem witness_KnownDeviceRangeIsTheStoredSelection :
    (demo 0#2 0x70#8 zeroRaw).pending = [DriverCall.configureFullScale 3#2 true].flatMap driverEvents ∧
    (∃ t, Host.Core.run core (demo 0#2 0x70#8 zeroRaw).pending.length (demo 0#2 0x70#8 zeroRaw) = .next t) ∧
    [DriverCall.configureFullScale 3#2 true].foldl trackRange none = some 3#2 := ⟨by decide, ⟨_, rfl⟩, rfl⟩

end Sys2Proof.Tests
end

/-! PROOFS. What `RN32` does to a rational in the normal range, and that it keeps the number of a normal pattern (R117, R68). -/

namespace Sys2Proof.Machine

/-! ### A pattern and its fields -/

/-- A pattern is its sign, its biased exponent and its fraction packed again (R68). -/
theorem packB32_fields (p : B32) : packB32 (b32Sign p) (b32Exp p) (b32Frac p) = p := by
  apply BitVec.eq_of_getLsbD_eq
  intro i hi
  simp only [getLsbD_packB32, b32Exp, b32Frac, BitVec.ofNat_toNat, BitVec.setWidth_eq, BitVec.getLsbD_extractLsb']
  split_ifs with hfrac hexp
  · simp [hfrac]
  · simp [hexp, show 23 + (i - 23) = i by omega]
  · obtain rfl : i = 31 := by omega
    cases hs : b32Sign p <;> simp_all [b32Sign]

theorem b32Exp_bounds {p : B32} (h : b32Normal p = true) : 1 ≤ b32Exp p ∧ b32Exp p ≤ 254 := by
  simpa [b32Normal] using h

theorem b32Frac_lt (p : B32) : b32Frac p < 2 ^ 23 := BitVec.isLt _

/-- The signed 24-bit significand of a normal pattern, `±(2^23 + F)` (R68). -/
def b32Sig (p : B32) : Int := (if b32Sign p then -1 else 1) * (2 ^ 23 + b32Frac p)

theorem abs_b32Sig (p : B32) : |b32Sig p| = 2 ^ 23 + b32Frac p := by
  rw [b32Sig, abs_mul, abs_of_pos (by positivity : (0 : Int) < 2 ^ 23 + b32Frac p)]
  split <;> simp

theorem b32Sig_neg_iff (p : B32) : b32Sig p < 0 ↔ b32Sign p = true := by
  unfold b32Sig
  split <;> simp_all <;> omega

/-- A normal number is its significand times a power of two (R68). -/
theorem val_eq_b32Sig_mul {p : B32} (h : b32Normal p = true) :
    val p = b32Sig p * (2 : ℚ) ^ ((b32Exp p : Int) - 127 - 23) := by
  rw [val, if_pos h, pow2_eq_zpow, b32Sig, zpow_sub₀ (by norm_num) _ 23]
  push_cast
  split <;> norm_num <;> ring

theorem val_lt_zero_iff {p : B32} (h : b32Normal p = true) : val p < 0 ↔ b32Sign p = true := by
  have hpow : (0 : ℚ) < (2 : ℚ) ^ ((b32Exp p : Int) - 127 - 23) := by positivity
  rw [val_eq_b32Sig_mul h, ← not_le, mul_nonneg_iff_of_pos_right hpow, not_le, Int.cast_lt_zero, b32Sig_neg_iff]

theorem abs_val_eq {p : B32} (h : b32Normal p = true) :
    |val p| = ((2 ^ 23 + b32Frac p : Nat) : ℚ) * (2 : ℚ) ^ ((b32Exp p : Int) - 127 - 23) := by
  rw [val_eq_b32Sig_mul h, abs_mul, abs_of_pos (by positivity : (0 : ℚ) < (2 : ℚ) ^ ((b32Exp p : Int) - 127 - 23)),
    ← Int.cast_abs, abs_b32Sig]
  push_cast
  rfl

/-! ### Significands with 24 bits -/

theorem pow23_mul_ulp_eq (e : Int) : (2 : ℚ) ^ 23 * (2 : ℚ) ^ (e - 23) = (2 : ℚ) ^ e := by
  rw [← zpow_natCast, ← zpow_add₀ (by norm_num)]
  congr 1
  push_cast
  ring

theorem half_ulp_eq (e : Int) : (2 : ℚ) ^ (e - 24) = 1 / 2 * (2 : ℚ) ^ (e - 23) := by
  rw [show e - 23 = (e - 24) + 1 by ring, zpow_add₀ (by norm_num)]; ring

/-- A 24-bit significand times `2^(e-23)` lies between `2^e` and `2^(e+1)`. -/
theorem sig_mul_pow2_bounds {m : Nat} (h1 : 2 ^ 23 ≤ m) (h2 : m < 2 ^ 24) (e : Int) :
    (2 : ℚ) ^ e ≤ m * (2 : ℚ) ^ (e - 23) ∧ m * (2 : ℚ) ^ (e - 23) < (2 : ℚ) ^ (e + 1) := by
  rw [zpow_add₀ (by norm_num), zpow_one, ← pow23_mul_ulp_eq e]
  have hu : (0 : ℚ) < (2 : ℚ) ^ (e - 23) := by positivity
  have h1' : (2 : ℚ) ^ 23 ≤ m := by exact_mod_cast h1
  have h2' : (m : ℚ) < 2 ^ 23 * 2 := by exact_mod_cast h2
  rw [mul_right_comm]
  exact ⟨mul_le_mul_of_nonneg_right h1' hu.le, mul_lt_mul_of_pos_right h2' hu⟩

/-- The rounded number is a whole number of units `2^(e-23)`, `e` the exponent before the carry. -/
theorem roundedSig_eq_units {num den : Nat} (hn : 0 < num) (hd : 0 < den) :
    ∃ d : Nat, (d = 0 ∨ d = 1) ∧ (roundedSig num den).2 = floorLog2 num den + d ∧
      ((roundedSig num den).1 : ℚ) * (2 : ℚ) ^ ((roundedSig num den).2 - 23)
        = (((roundedSig num den).1 * 2 ^ d : Nat) : ℚ) * (2 : ℚ) ^ (floorLog2 num den - 23) := by
  obtain ⟨-, -, hexp, -⟩ := roundedSig_spec hn hd
  obtain ⟨d, hd01, hd⟩ : ∃ d : Nat, (d = 0 ∨ d = 1) ∧ (roundedSig num den).2 = floorLog2 num den + d := by
    rcases hexp with h | h
    · exact ⟨0, .inl rfl, by simpa using h.symm⟩
    · exact ⟨1, .inr rfl, by simpa using h.symm⟩
  refine ⟨d, hd01, hd, ?_⟩
  rw [hd, show floorLog2 num den + (d : Int) - 23 = (d : Int) + (floorLog2 num den - 23) by ring, zpow_add₀ (by norm_num),
    zpow_natCast]
  push_cast
  ring

/-- Where the rounding error is half a unit in the last place, the rounded significand is even (R117). -/
theorem roundedSig_even_of_tie {num den : Nat} (hd : 0 < den)
    (h : |((roundedSig num den).1 : ℚ) * (2 : ℚ) ^ ((roundedSig num den).2 - 23) - (num : ℚ) / den|
      = (2 : ℚ) ^ (floorLog2 num den - 24)) : (roundedSig num den).1 % 2 = 0 := by
  obtain ⟨hmd, hm⟩ := divPow2_spec (num := num) hd (floorLog2 num den - 23)
  obtain ⟨-, htie⟩ := roundHalfEven_spec (num := (divPow2 num den (floorLog2 num den - 23)).1) hmd
  have hu : (0 : ℚ) < (2 : ℚ) ^ (floorLog2 num den - 23) := by positivity
  unfold roundedSig at h ⊢
  simp only at h ⊢
  split at h
  case isTrue hc => rw [if_pos hc]; norm_num
  case isFalse hc =>
    rw [if_neg hc]
    apply htie
    rw [hm]
    apply mul_right_cancel₀ hu.ne'
    rw [← half_ulp_eq, ← h, ← abs_of_pos hu, ← abs_mul, abs_of_pos hu, sub_mul, div_mul_cancel₀ _ hu.ne']

/-- A ratio that is a 24-bit significand times a power of two rounds to itself. -/
theorem roundedSig_of_sig {num den m : Nat} (hn : 0 < num) (hd : 0 < den) (hm1 : 2 ^ 23 ≤ m) (hm2 : m < 2 ^ 24)
    (hf : (num : ℚ) / den = m * (2 : ℚ) ^ (floorLog2 num den - 23)) : roundedSig num den = (m, floorLog2 num den) := by
  obtain ⟨hr1, hr2, -, herr⟩ := roundedSig_spec hn hd
  obtain ⟨d, hd01, hexp, hunits⟩ := roundedSig_eq_units hn hd
  have hu : (0 : ℚ) < (2 : ℚ) ^ (floorLog2 num den - 23) := by positivity
  rw [hunits, hf, ← sub_mul, abs_mul, abs_of_pos hu, half_ulp_eq] at herr
  have hclose := le_of_mul_le_mul_right herr hu
  have heq : (roundedSig num den).1 * 2 ^ d = m := by
    have h : |(((roundedSig num den).1 * 2 ^ d : Nat) : Int) - m| < 1 := by
      have : |((((roundedSig num den).1 * 2 ^ d : Nat) : Int) : ℚ) - ((m : Int) : ℚ)| < 1 := by
        simpa only [Int.cast_natCast] using lt_of_le_of_lt hclose (by norm_num)
      exact_mod_cast this
    have := Int.abs_lt_one_iff.1 h
    omega
  rcases hd01 with rfl | rfl
  · exact Prod.ext (by simpa using heq) (by simpa using hexp)
  · omega

/-! ### Normal numbers round to themselves -/

/-- In the normal range `RN32` packs the sign, the biased exponent and the significand less its leading bit (R117). -/
theorem rn32_eq_packB32 {x : ℚ} (hx : x ≠ 0) (h1 : -126 ≤ (roundedSig x.num.natAbs x.den).2)
    (h2 : (roundedSig x.num.natAbs x.den).2 ≤ 127) :
    rn32 x = packB32 (decide (x < 0)) ((roundedSig x.num.natAbs x.den).2 + 127).toNat
      ((roundedSig x.num.natAbs x.den).1 - 2 ^ 23) := by
  rw [rn32, if_neg hx, if_pos ⟨h1, h2⟩]

theorem ne_zero_of_zpow_le_abs {x : ℚ} {e : Int} (h : (2 : ℚ) ^ e ≤ |x|) : x ≠ 0 :=
  abs_pos.1 (lt_of_lt_of_le (by positivity) h)

/-- The number of a normal pattern rounds to the pattern's significand and exponent. -/
theorem roundedSig_val {p : B32} (h : b32Normal p = true) :
    roundedSig (val p).num.natAbs (val p).den = (2 ^ 23 + b32Frac p, (b32Exp p : Int) - 127) := by
  have hfrac := b32Frac_lt p
  have habs := abs_val_eq h
  obtain ⟨hlo, hhi⟩ := sig_mul_pow2_bounds (m := 2 ^ 23 + b32Frac p) (by omega) (by omega) ((b32Exp p : Int) - 127)
  rw [← habs] at hlo hhi
  have hne := ne_zero_of_zpow_le_abs hlo
  have he := floorLog2_unique hne hlo hhi
  rw [← he]
  apply roundedSig_of_sig (Int.natAbs_pos.2 (Rat.num_ne_zero.2 hne)) (val p).den_pos (by omega) (by omega)
  rw [he, abs_eq_num_div_den, habs]

theorem val_ne_zero {p : B32} (h : b32Normal p = true) : val p ≠ 0 := by
  rw [← abs_pos, abs_val_eq h]
  positivity

theorem rn32_val_of_normal {p : B32} (h : b32Normal p = true) : rn32 (val p) = p := by
  obtain ⟨hexp1, hexp2⟩ := b32Exp_bounds h
  have hr := roundedSig_val h
  rw [rn32_eq_packB32 (val_ne_zero h) (by rw [hr]; simp only; omega) (by rw [hr]; simp only; omega), hr]
  simp only [val_lt_zero_iff h, Bool.decide_eq_true, Nat.add_sub_cancel_left, sub_add_cancel, Int.toNat_natCast]
  exact packB32_fields p

/-! ### The nearest normal number -/

/-- The error of `RN32` is the error of the rounded significand against the magnitude, whatever the sign. -/
theorem abs_val_rn32_sub {x : ℚ} (hx : x ≠ 0) (h1 : -126 ≤ (roundedSig x.num.natAbs x.den).2)
    (h2 : (roundedSig x.num.natAbs x.den).2 ≤ 127) :
    |val (rn32 x) - x| = |((roundedSig x.num.natAbs x.den).1 : ℚ) * (2 : ℚ) ^ ((roundedSig x.num.natAbs x.den).2 - 23)
      - (x.num.natAbs : ℚ) / x.den| := by
  rw [(rn32_val hx h1 h2).2, abs_eq_num_div_den]
  split
  case isTrue hneg => rw [abs_of_neg hneg, ← abs_neg]; congr 1; ring
  case isFalse hpos => rw [abs_of_nonneg (not_lt.1 hpos), one_mul]

section NormalRange

variable {x : ℚ} {e : Int} (hlo : (2 : ℚ) ^ e ≤ |x|) (hhi : |x| < (2 : ℚ) ^ (e + 1)) (he1 : -126 ≤ e) (he2 : e ≤ 126)
include hlo hhi

/-- The exponent of a rational's rounded significand is the rational's own or, after a carry, one more. -/
theorem roundedSig_exp_bounds :
    e ≤ (roundedSig x.num.natAbs x.den).2 ∧ (roundedSig x.num.natAbs x.den).2 ≤ e + 1 := by
  have hx := ne_zero_of_zpow_le_abs hlo
  obtain ⟨-, -, hexp, -⟩ := roundedSig_spec (Int.natAbs_pos.2 (Rat.num_ne_zero.2 hx)) x.den_pos
  rw [floorLog2_unique hx hlo hhi] at hexp
  omega

include he1 he2

/-- In the normal range the rounded number is a whole number of units `2^(e-23)`. -/
theorem val_rn32_eq_units : ∃ k : Int, val (rn32 x) = k * (2 : ℚ) ^ (e - 23) := by
  have hx := ne_zero_of_zpow_le_abs hlo
  obtain ⟨hr1, hr2⟩ := roundedSig_exp_bounds hlo hhi
  obtain ⟨d, -, -, hunits⟩ := roundedSig_eq_units (Int.natAbs_pos.2 (Rat.num_ne_zero.2 hx)) x.den_pos
  rw [floorLog2_unique hx hlo hhi] at hunits
  refine ⟨(if x < 0 then -1 else 1) * ((roundedSig x.num.natAbs x.den).1 * 2 ^ d : Nat), ?_⟩
  rw [(rn32_val hx (by omega) (by omega)).2, hunits]
  push_cast
  ring

/-- In the normal range an error of half a unit leaves an even fraction (R117). -/
theorem b32Frac_rn32_even_of_tie (htie : |val (rn32 x) - x| = (2 : ℚ) ^ (e - 24)) : b32Frac (rn32 x) % 2 = 0 := by
  have hx := ne_zero_of_zpow_le_abs hlo
  have hn : 0 < x.num.natAbs := Int.natAbs_pos.2 (Rat.num_ne_zero.2 hx)
  obtain ⟨hr1, hr2⟩ := roundedSig_exp_bounds hlo hhi
  obtain ⟨hsig1, hsig2, -, -⟩ := roundedSig_spec hn x.den_pos
  rw [abs_val_rn32_sub hx (by omega) (by omega), ← floorLog2_unique hx hlo hhi] at htie
  have heven := roundedSig_even_of_tie x.den_pos htie
  rw [rn32_eq_packB32 hx (by omega) (by omega), b32Frac_packB32 _ _ (by omega)]
  omega

/-- `RN32` is nearest among the whole numbers of units `2^(e-23)`, and where another is as near its fraction is even. -/
theorem rn32_nearest_units (j : Int) :
    |val (rn32 x) - x| ≤ |j * (2 : ℚ) ^ (e - 23) - x| ∧
    (|val (rn32 x) - x| = |j * (2 : ℚ) ^ (e - 23) - x| → j * (2 : ℚ) ^ (e - 23) ≠ val (rn32 x) →
      b32Frac (rn32 x) % 2 = 0) := by
  obtain ⟨-, herr⟩ := rn32_normal_half_ulp hlo hhi he1 he2
  obtain ⟨k, hk⟩ := val_rn32_eq_units hlo hhi he1 he2
  by_cases hjk : j = k
  · subst hjk
    exact ⟨by rw [hk], fun _ hne => absurd hk.symm hne⟩
  · -- another whole number of units is a unit away, so the two errors add up to a unit at least
    have hunit : (2 : ℚ) ^ (e - 23) ≤ |j * (2 : ℚ) ^ (e - 23) - x| + |val (rn32 x) - x| := by
      have hu : (0 : ℚ) < (2 : ℚ) ^ (e - 23) := by positivity
      have h1 : (1 : ℚ) ≤ |(j : ℚ) - k| := by exact_mod_cast Int.one_le_abs (sub_ne_zero.2 hjk)
      calc (2 : ℚ) ^ (e - 23) ≤ |(j : ℚ) - k| * (2 : ℚ) ^ (e - 23) := le_mul_of_one_le_left hu.le h1
        _ = |j * (2 : ℚ) ^ (e - 23) - val (rn32 x)| := by rw [hk, ← sub_mul, abs_mul, abs_of_pos hu]
        _ ≤ _ := by rw [abs_sub_comm (val (rn32 x)) x]; exact abs_sub_le _ _ _
    have hhalf := half_ulp_eq e
    refine ⟨by linarith, fun heq _ => b32Frac_rn32_even_of_tie hlo hhi he1 he2 ?_⟩
    linarith

/-- A number of magnitude below `2^e` is farther from `x` than `RN32` is. -/
theorem rn32_nearer_than_below {y : ℚ} (hy : |y| < (2 : ℚ) ^ e) : |val (rn32 x) - x| < |y - x| := by
  have hunits : ((2 ^ 23 : Int) : ℚ) * (2 : ℚ) ^ (e - 23) = (2 : ℚ) ^ e := by exact_mod_cast pow23_mul_ulp_eq e
  have hbound : |val (rn32 x) - x| ≤ |x| - (2 : ℚ) ^ e := by
    rcases lt_or_ge x 0 with hneg | hpos
    · have h := (rn32_nearest_units hlo hhi he1 he2 (-2 ^ 23)).1
      rw [abs_of_neg hneg] at hlo ⊢
      rw [Int.cast_neg, neg_mul, hunits, abs_of_nonneg (a := -(2 : ℚ) ^ e - x) (by linarith)] at h
      linarith
    · have h := (rn32_nearest_units hlo hhi he1 he2 (2 ^ 23)).1
      rw [abs_of_nonneg hpos] at hlo ⊢
      rw [hunits, abs_of_nonpos (a := (2 : ℚ) ^ e - x) (by linarith)] at h
      linarith
  have htri := abs_sub_abs_le_abs_sub x y
  rw [abs_sub_comm] at htri
  linarith

/-- R117: no normal number is nearer than `RN32`, and where another is as near its fraction is even. -/
theorem rn32_nearest_normal {p : B32} (hp : b32Normal p = true) :
    |val (rn32 x) - x| ≤ |val p - x| ∧
    (|val (rn32 x) - x| = |val p - x| → val p ≠ val (rn32 x) → b32Frac (rn32 x) % 2 = 0) := by
  rcases le_or_gt e ((b32Exp p : Int) - 127) with hexp | hexp
  · -- `p`'s unit is a multiple of `2^(e-23)`
    have hval : val p = ((b32Sig p * 2 ^ ((b32Exp p : Int) - 127 - e).toNat : Int) : ℚ) * (2 : ℚ) ^ (e - 23) := by
      rw [val_eq_b32Sig_mul hp]
      push_cast
      rw [mul_assoc, ← zpow_natCast, Int.toNat_of_nonneg (by omega), ← zpow_add₀ (by norm_num)]
      congr 2; ring
    rw [hval]
    exact rn32_nearest_units hlo hhi he1 he2 _
  · have hfrac := b32Frac_lt p
    have hbelow : |val p| < (2 : ℚ) ^ e := by
      rw [abs_val_eq hp]
      calc _ < (2 : ℚ) ^ ((b32Exp p : Int) - 127 + 1) := (sig_mul_pow2_bounds (by omega) (by omega) _).2
        _ ≤ _ := zpow_le_zpow_right₀ (by norm_num) (by omega)
    have hfar := rn32_nearer_than_below hlo hhi he1 he2 hbelow
    exact ⟨hfar.le, fun heq => absurd heq hfar.ne⟩

end NormalRange

/-- Settles O34: nearest among the multiples of the unit of `x` by half a unit of error, and every normal number is such a
multiple or below `2^e`. -/
theorem roundingIsToNearestTiesToEven : Obligations.RoundingIsToNearestTiesToEven :=
  fun _ _ hlo hhi he1 he2 =>
    ⟨(rn32_normal_half_ulp hlo hhi he1 he2).1, fun _ hp => rn32_nearest_normal hlo hhi he1 he2 hp⟩

/-- Settles O35: the rounded significand and exponent of a normal number are the pattern's own. -/
theorem normalNumbersRoundToThemselves : Obligations.NormalNumbersRoundToThemselves :=
  fun _ h => rn32_val_of_normal h

end Sys2Proof.Machine

/-! PROOFS. One step of the block against the spec's step function read off the byte tables (R7, R62), and the state after reset. -/

namespace Sys2Proof.Machine

open Sys2Proof.Safety

/-- The decoder by the numeric byte values of R62 and R63. -/
theorem decodeBeat_byte_cases (b : CommandBeat) :
    (b.cmd.toNat = 0x00 ∧ decodeBeat b = .ok .nop) ∨
    (b.cmd.toNat ∈ [0x40, 0x50, 0x60, 0x70] ∧
      decodeBeat b = .ok (.setfs (BitVec.ofNat Config.fsBits (b.cmd.toNat / 16 - 4)) false)) ∨
    (b.cmd.toNat = 0x80 ∧ decodeBeat b = .ok (.decode false b.raw)) ∨
    (b.cmd.toNat ∈ [0x41, 0x51, 0x61, 0x71, 0x81] ∧
      ((∃ c, decodeBeat b = .ok (.setfs c true)) ∨ decodeBeat b = .ok (.decode true b.raw))) ∨
    (b.cmd.toNat ∉ [0x00, 0x40, 0x50, 0x60, 0x70, 0x80, 0x41, 0x51, 0x61, 0x71, 0x81] ∧ ∃ e, decodeBeat b = .error e) := by
  have setfs : ∀ c : CmdByte, c &&& 0xCE#8 = 0x40#8 →
      (c.toNat ∈ [0x40, 0x50, 0x60, 0x70] ∧ cmdFs c = BitVec.ofNat 2 (c.toNat / 16 - 4) ∧ cmdXerr c = false) ∨
      (c.toNat ∈ [0x41, 0x51, 0x61, 0x71, 0x81] ∧ cmdXerr c = true) := by decide
  have decode : ∀ c : CmdByte, c &&& 0xFE#8 = 0x80#8 →
      (c.toNat = 0x80 ∧ cmdXerr c = false) ∨ (c.toNat ∈ [0x41, 0x51, 0x61, 0x71, 0x81] ∧ cmdXerr c = true) := by decide
  have illegal : ∀ c : CmdByte, legalCmds.contains c = false →
      c.toNat ∉ [0x00, 0x40, 0x50, 0x60, 0x70, 0x80, 0x41, 0x51, 0x61, 0x71, 0x81] := by decide
  rcases decodeBeat_cases b with ⟨hc, hd⟩ | ⟨hc, hd⟩ | ⟨hc, hd⟩ | ⟨hwf, hd⟩
  · exact .inl ⟨by rw [hc]; rfl, hd⟩
  · rcases setfs _ hc with ⟨hn, hfs, hx⟩ | ⟨hn, hx⟩
    · exact .inr (.inl ⟨hn, by rw [hd, hfs, hx]⟩)
    · exact .inr (.inr (.inr (.inl ⟨hn, .inl ⟨cmdFs b.cmd, by rw [hd, hx]⟩⟩)))
  · rcases decode _ hc with ⟨hn, hx⟩ | ⟨hn, hx⟩
    · exact .inr (.inr (.inl ⟨hn, by rw [hd, hx]⟩))
    · exact .inr (.inr (.inr (.inl ⟨hn, .inr (by rw [hd, hx])⟩)))
  · exact .inr (.inr (.inr (.inr ⟨illegal _ hwf, _, hd⟩)))

/-! ### The lanes by arithmetic on the bytes -/

/-- UNPACK by arithmetic (R90). -/
theorem unpack_toNat (lo hi : Byte) : (unpack lo hi).toNat = hi.toNat * 256 + lo.toNat := by
  have hlo := byte_lt lo
  rw [unpack_eq_append]
  exact (BitVec.toNat_append hi lo).trans (by rw [← Nat.shiftLeft_add_eq_or_of_lt hlo, Nat.shiftLeft_eq])

/-- UNPACK then SEXT by arithmetic: the sign is bit 7 of the high byte (R91, R92). -/
theorem sext16_unpack (lo hi : Byte) :
    sext16 (unpack lo hi) =
      if hi.toNat < 0x80 then ((hi.toNat * 256 + lo.toNat : Nat) : Int) else ((hi.toNat * 256 + lo.toNat : Nat) : Int) - 65536 := by
  have hlo := byte_lt lo
  rw [sext16, word_toInt, unpack_toNat]
  split <;> split <;> omega

/-- A lane of the machine is the lane of the spec's arithmetic (R124). -/
theorem laneOf_unpack (ev : ScaleEval) (c : RangeCode) (lo hi : Byte) : laneOf ev c (unpack lo hi) = specLane ev c lo hi := by
  have hw : unpack lo hi = BitVec.ofNat Config.wordBits (hi.toNat * 256 + lo.toNat) := by
    rw [← unpack_toNat, BitVec.ofNat_toNat, BitVec.setWidth_eq]
  unfold laneOf specLane
  simp only [← sext16_unpack, ← hw]
  rfl

theorem decodeLanes_eq_specLanes (ev : ScaleEval) (c : RangeCode) (raw : RawSample) :
    decodeLanes ev c raw =
      { x := specLane ev c raw.b0 raw.b1, y := specLane ev c raw.b2 raw.b3, z := specLane ev c raw.b4 raw.b5 } := by
  simp [decodeLanes, axisWord, laneOf_unpack]

/-! ### The spec's step function, one equation per row of R62 -/

section SpecStep

variable {ev : ScaleEval} {fsr : RangeCode} {b : CommandBeat}

theorem specStep_nop (h : b.cmd.toNat = 0x00) : specStep ev fsr b = (fsr, { status := .ok, fsQ := fsr, data := none }) := by
  simp [specStep, h]

theorem specStep_setfs (h : b.cmd.toNat ∈ [0x40, 0x50, 0x60, 0x70]) :
    specStep ev fsr b = (BitVec.ofNat Config.fsBits (b.cmd.toNat / 16 - 4),
      { status := .ok, fsQ := BitVec.ofNat Config.fsBits (b.cmd.toNat / 16 - 4), data := none }) := by
  have hnop : b.cmd.toNat ≠ 0x00 := by intro h0; simp [h0] at h
  rw [specStep, if_neg hnop, if_pos h]

theorem specStep_decode (h : b.cmd.toNat = 0x80) :
    specStep ev fsr b = (fsr,
      { status := .ok, fsQ := fsr
        data := some { x := specLane ev fsr b.raw.b0 b.raw.b1
                       y := specLane ev fsr b.raw.b2 b.raw.b3
                       z := specLane ev fsr b.raw.b4 b.raw.b5 } }) := by
  simp [specStep, h]

theorem specStep_fail (h : b.cmd.toNat ∈ [0x41, 0x51, 0x61, 0x71, 0x81]) :
    specStep ev fsr b = (fsr, { status := .busError, fsQ := fsr, data := none }) := by
  have hother : b.cmd.toNat ≠ 0x00 ∧ b.cmd.toNat ∉ [0x40, 0x50, 0x60, 0x70] ∧ b.cmd.toNat ≠ 0x80 := by
    simp only [List.mem_cons, List.not_mem_nil, or_false] at h ⊢
    omega
  obtain ⟨hnop, hsetfs, hdecode⟩ := hother
  rw [specStep, if_neg hnop, if_neg hsetfs, if_neg hdecode, if_pos h]

theorem specStep_illegal (h : b.cmd.toNat ∉ [0x00, 0x40, 0x50, 0x60, 0x70, 0x80, 0x41, 0x51, 0x61, 0x71, 0x81]) :
    specStep ev fsr b = (fsr, { status := .illegalCommand, fsQ := fsr, data := none }) := by
  simp only [List.mem_cons, List.not_mem_nil, not_or] at h
  simp [specStep, h]

end SpecStep

/-! ### One step -/

section Step

variable {s : State} {b : CommandBeat} {rest : List HostEvent} (h : s.pending = .beat b :: rest)
include h

/-- A legal beat is performed whole, on the state without it (R143). -/
theorem step_of_decode_ok {i : Instr} (hd : decodeBeat b = .ok i) : step s = exec i { s with pending := rest } := by
  simp only [step, takeEvent_cons h, hd]

/-- An illegal beat raises `IllegalCommand` (R202). -/
theorem step_of_decode_error {e : DecodeReject} (hd : decodeBeat b = .error e) :
    step s = raiseError .illegalCommand { s with pending := rest } := by
  simp only [step, takeEvent_cons h, hd]

end Step

/-- Settles O50, by the decoder's cases on the numeric byte. -/
theorem stepRefinesTheSpecStep : Obligations.StepRefinesTheSpecStep := by
  intro s b rest h
  rcases decodeBeat_byte_cases b with ⟨hn, hd⟩ | ⟨hn, hd⟩ | ⟨hn, hd⟩ | ⟨hn, ⟨c, hd⟩ | hd⟩ | ⟨hn, e, hd⟩
  · rw [step_of_decode_ok h hd, specStep_nop hn]
    rfl
  · rw [step_of_decode_ok h hd, specStep_setfs hn]
    rfl
  · rw [step_of_decode_ok h hd, specStep_decode hn, ← decodeLanes_eq_specLanes]
    rfl
  · rw [step_of_decode_ok h hd, specStep_fail hn]
    rfl
  · rw [step_of_decode_ok h hd, specStep_fail hn]
    rfl
  · rw [step_of_decode_error h hd, specStep_illegal hn]
    rfl

/-- Settles O2: each field of the default state is the spec's default. -/
theorem resetStateIsTheDefault : Obligations.ResetStateIsTheDefault := by
  rw [Obligations.ResetStateIsTheDefault, State.reset, State.resetWith, Params.specDefault]

end Sys2Proof.Machine

/-! PROOFS. The state register: where the invariant starts (R26, R230), what a command leaves unchanged (R140 to R142) and what
writes `FSR` (R20). -/

namespace Sys2Proof.Machine

open Sys2Proof.Safety

/-- No response has been given at reset, so legal parameters are all the invariant asks for. -/
theorem inv_resetWith {p : Params} (hp : p.wf = true) : Inv (State.resetWith p) :=
  ⟨hp, by simp⟩

theorem specDefault_wf : Params.specDefault.wf = true := by decide

/-- Settles O3: the invariant starts under every legal choice of parameters, and the spec's defaults are one. -/
theorem invariantHoldsAtReset : Obligations.InvariantHoldsAtReset :=
  ⟨inv_resetWith specDefault_wf, fun _ => inv_resetWith⟩

/-- Settles O22: every command adds one response to a state in which at most `FSR` was written. -/
theorem frameOfEveryCommand : Obligations.FrameOfEveryCommand := by
  intro i s t h
  obtain ⟨st, d, c, hexec, hfsr⟩ := exec_answers i s
  obtain rfl : respond st d (writeFsr c s) = t := Host.Outcome.next.inj (hexec.symm.trans h)
  refine ⟨rfl, rfl, ⟨_, rfl⟩, ?_⟩
  rcases hfsr with ⟨hc, hne⟩ | hi
  · exact ⟨fun k hk => absurd hk (hne k), fun _ => hc⟩
  · refine ⟨fun k hk => ?_, fun hne => absurd hi (hne c)⟩
    obtain ⟨hck, -⟩ := Instr.setfs.inj (hi.symm.trans hk)
    exact hck

/-- A command that changes `FSR` is a successful SETFS of the value left there (R20, R141). -/
theorem exec_fsr_ne {i : Instr} {s t : State} (h : exec i s = .next t) (hne : t.fsr ≠ s.fsr) : i = .setfs t.fsr false := by
  obtain ⟨-, -, -, hset, hkeep⟩ := frameOfEveryCommand i s t h
  by_cases hi : ∃ c, i = .setfs c false
  · obtain ⟨c, hc⟩ := hi
    rw [hc, hset c hc]
  · exact absurd (hkeep (not_exists.1 hi)) hne

/-- A beat that decodes to a SETFS without the failure bit has one of four command bytes (R62). -/
theorem cmd_of_decodeBeat_setfs_ok {b : CommandBeat} {c : RangeCode} (h : decodeBeat b = .ok (.setfs c false)) :
    b.cmd ∈ [0x40#8, 0x50#8, 0x60#8, 0x70#8] := by
  have bytes : ∀ k : CmdByte, k &&& 0xCE#8 = 0x40#8 → cmdXerr k = false → k ∈ [0x40#8, 0x50#8, 0x60#8, 0x70#8] := by decide
  rcases decodeBeat_cases b with ⟨-, hd⟩ | ⟨hrow, hd⟩ | ⟨-, hd⟩ | ⟨-, hd⟩
  · cases hd.symm.trans h
  · obtain ⟨-, hx⟩ := Instr.setfs.inj (Except.ok.inj (hd.symm.trans h))
    exact bytes b.cmd hrow hx
  · cases hd.symm.trans h
  · cases hd.symm.trans h

/-- Settles O23: of the ways a step can go, only a reset and a successful SETFS write `FSR`. -/
theorem onlySetfsAndResetWriteFsr : Obligations.OnlySetfsAndResetWriteFsr := by
  intro s t h hne
  rcases step_cases s with ⟨-, hs⟩ | ⟨rest, hp, hs⟩ | ⟨b, rest, i, hp, hd, hs⟩ | ⟨b, rest, e, -, -, hs⟩
  · cases hs.symm.trans h
  · obtain rfl := Host.Outcome.next.inj (hs.symm.trans h)
    exact .inl ⟨rest, hp, rfl⟩
  · obtain rfl := exec_fsr_ne (hs.symm.trans h) hne
    exact .inr ⟨b, rest, t.fsr, hp, hd, rfl, cmd_of_decodeBeat_setfs_ok hd⟩
  · obtain rfl := Host.Outcome.next.inj (hs.symm.trans h)
    exact absurd rfl hne

end Sys2Proof.Machine

/-! PROOFS. The memory of the block: the 48-bit view of `RAW` (R41), and the one value kept from command to command, `FSR`, which is
always the latest commit (R46). -/

namespace Sys2Proof.Machine

open Sys2Proof.Safety

/-! ### The 48-bit view of `RAW` -/

/-- The view is the three words side by side, x lowest (R41, R64). -/
theorem rawView48_eq_words (raw : RawSample) : rawView48 raw = axisWord raw .z ++ axisWord raw .y ++ axisWord raw .x := by
  simp only [axisWord, unpack_eq_append, axisLow_x, axisLow_y, axisLow_z, axisHigh_x, axisHigh_y, axisHigh_z, rawView48,
    BitVec.append_assoc, BitVec.cast_eq]

/-- Settles O25: each word is read back from the three side by side. -/
theorem rawViewHoldsTheThreeWords : Obligations.RawViewHoldsTheThreeWords := by
  intro raw
  rw [rawView48_eq_words]
  refine ⟨?_, ?_, ?_⟩
  · exact BitVec.extractLsb'_append_eq_right
  · rw [BitVec.extractLsb'_append_eq_of_le (by decide)]
    exact BitVec.extractLsb'_append_eq_right
  · rw [BitVec.extractLsb'_append_eq_of_le (by decide)]
    exact BitVec.extractLsb'_append_eq_left

/-! ### `FSR` along a run -/

/-- Commits are taken event by event, as `step_commits` gives them. -/
theorem latestCommit_cons (p : Params) (c : RangeCode) (e : HostEvent) (es : List HostEvent) :
    latestCommit p c (e :: es) = latestCommit p (latestCommit p c [e]) es := rfl

/-- The spec's step writes `FSR` exactly when the beat commits (R141, R46). -/
theorem specStep_fst_eq_latestCommit (p : Params) (ev : ScaleEval) (c : RangeCode) (b : CommandBeat) :
    (specStep ev c b).1 = latestCommit p c [.beat b] := by
  by_cases h : b.cmd.toNat ∈ [0x40, 0x50, 0x60, 0x70]
  · rw [specStep_setfs h]
    exact (if_pos h).symm
  · refine Eq.trans ?_ (if_neg h).symm
    simp only [specStep, if_neg h]
    split_ifs <;> rfl

/-- A reset is taken on the state without it (R230). -/
theorem step_of_reset {s : State} {rest : List HostEvent} (h : s.pending = .reset :: rest) :
    step s = .next (resetBlock { s with pending := rest }) := by
  simp only [step, takeEvent_cons h]

/-- A step takes the oldest event, keeps the parameters and leaves in `FSR` what that event commits (R46, R143). -/
theorem step_commits {s : State} {e : HostEvent} {rest : List HostEvent} (h : s.pending = e :: rest) :
    ∃ t, step s = .next t ∧ t.params = s.params ∧ t.pending = rest ∧ t.fsr = latestCommit s.params s.fsr [e] := by
  cases e with
  | reset => exact ⟨_, step_of_reset h, rfl, rfl, rfl⟩
  | beat b => exact ⟨_, stepRefinesTheSpecStep s b rest h, rfl, rfl, specStep_fst_eq_latestCommit ..⟩

/-- A run whose first step answers a next state goes on from there. -/
theorem run_succ_of_step {M : Host.Core} {s t : M.State} (k : Nat) (h : M.step s = .next t) : M.run (k + 1) s = M.run k t := by
  rw [Host.Core.run, h]

/-- Settles O53, by induction on the number of steps: each takes one event and leaves what it commits. -/
theorem fsrIsTheLatestCommit : Obligations.FsrIsTheLatestCommit := by
  intro s k
  induction k generalizing s with
  | zero => exact fun _ => ⟨s, rfl, rfl, rfl⟩
  | succ k ih =>
    intro hk
    obtain ⟨e, rest, hp⟩ := List.exists_cons_of_length_pos (Nat.zero_lt_of_lt hk)
    obtain ⟨t, hstep, hparams, hpending, hfsr⟩ := step_commits hp
    obtain ⟨u, hrun, hleft, hlatest⟩ := ih t (by simpa [hp, hpending] using hk)
    refine ⟨u, (run_succ_of_step (M := core) k hstep).trans hrun, ?_, ?_⟩
    · rw [hleft, hpending, hp, List.drop_succ_cons]
    · rw [hlatest, hparams, hpending, hfsr, hp, List.take_succ_cons]
      exact (latestCommit_cons ..).symm

end Sys2Proof.Machine

/-! PROOFS. The invariant of the machine: the exponent of every SCALE result (R121) and the lawfulness of every response (R66). -/

namespace Sys2Proof.Machine

open Sys2Proof.Safety

/-! ### `RN32` and the multiples of a power of two -/

/-- Every integer of fewer than 25 bits is a binary32 number (R117). -/
theorem val_rn32_intCast {i : Int} (h : |i| < 2 ^ 24) : val (rn32 (i : ℚ)) = i := by
  rcases eq_or_ne i 0 with rfl | hi
  · rw [Int.cast_zero, rn32_zero, val_zero]
  · have habs : (1 : ℚ) ≤ |(i : ℚ)| := by exact_mod_cast Int.one_le_abs hi
    have hlt : |(i : ℚ)| < (2 : ℚ) ^ (24 : Int) := by exact_mod_cast h
    obtain ⟨e, hlo, hhi⟩ := exists_mem_Ico_zpow (y := (2 : ℚ)) (one_pos.trans_le habs) one_lt_two
    have he1 : 0 < e + 1 := (zpow_lt_zpow_iff_right₀ one_lt_two).1 ((zpow_zero (2 : ℚ)).trans_le habs |>.trans_lt hhi)
    have he2 : e < 24 := (zpow_lt_zpow_iff_right₀ one_lt_two).1 (hlo.trans_lt hlt)
    exact rn32_exact (e := e) (k := 0) (by rw [zpow_zero, mul_one]) (by omega) hlo hhi (by omega) (by omega)

section Monotone

variable {x : ℚ} {e k : Int} (hlo : (2 : ℚ) ^ e ≤ |x|) (hhi : |x| < (2 : ℚ) ^ (e + 1)) (he1 : -126 ≤ e) (he2 : e ≤ 126)
  (hk : e - 23 ≤ k)
include hk

/-- A multiple of a power of two from the unit of `x` on is a whole number of these units. -/
theorem mul_zpow_eq_units (j : Int) : ∃ i : Int, (j : ℚ) * (2 : ℚ) ^ k = i * (2 : ℚ) ^ (e - 23) := by
  refine ⟨j * 2 ^ (k - (e - 23)).toNat, ?_⟩
  push_cast
  rw [mul_assoc, ← zpow_natCast, Int.toNat_of_nonneg (by omega), ← zpow_add₀ two_ne_zero, sub_add_cancel]

include hlo hhi he1 he2

/-- `RN32` does not pass a multiple of its unit above (R117). -/
theorem val_rn32_le {j : Int} (h : x ≤ j * (2 : ℚ) ^ k) : val (rn32 x) ≤ j * (2 : ℚ) ^ k := by
  obtain ⟨i, hi⟩ := mul_zpow_eq_units hk j
  rw [hi] at h ⊢
  have hnear := (rn32_nearest_units hlo hhi he1 he2 i).1
  rw [abs_of_nonneg (sub_nonneg.2 h)] at hnear
  exact sub_le_sub_iff_right x |>.1 ((le_abs_self _).trans hnear)

/-- `RN32` does not pass a multiple of its unit below (R117). -/
theorem le_val_rn32 {j : Int} (h : j * (2 : ℚ) ^ k ≤ x) : j * (2 : ℚ) ^ k ≤ val (rn32 x) := by
  obtain ⟨i, hi⟩ := mul_zpow_eq_units hk j
  rw [hi] at h ⊢
  have hnear := (rn32_nearest_units hlo hhi he1 he2 i).1
  rw [abs_of_nonpos (sub_nonpos.2 h)] at hnear
  linarith [neg_abs_le (val (rn32 x) - x)]

/-- `RN32` does not pass a multiple of its unit in magnitude (R117). -/
theorem abs_val_rn32_le {j : Int} (h : |x| ≤ j * (2 : ℚ) ^ k) : |val (rn32 x)| ≤ j * (2 : ℚ) ^ k := by
  obtain ⟨hneg, hpos⟩ := abs_le.1 h
  rw [← neg_mul, ← Int.cast_neg] at hneg
  have hbelow := le_val_rn32 hlo hhi he1 he2 hk hneg
  rw [Int.cast_neg, neg_mul] at hbelow
  exact abs_le.2 ⟨hbelow, val_rn32_le hlo hhi he1 he2 hk hpos⟩

end Monotone

/-- The biased exponent of a normal number bounds its magnitude from below (R68). -/
theorem zpow_b32Exp_le_abs_val {p : B32} (hp : b32Normal p = true) : (2 : ℚ) ^ ((b32Exp p : Int) - 127) ≤ |val p| := by
  have hfrac := b32Frac_lt p
  rw [abs_val_eq hp]
  exact (sig_mul_pow2_bounds (by omega) (by omega) _).1

/-- Powers of two around a rational's magnitude bound the biased exponent of its rounding (R117, R68). -/
theorem b32Exp_rn32_bounds {x : ℚ} {a b : Int} (ha : (2 : ℚ) ^ a ≤ |x|) (hb : |x| ≤ (2 : ℚ) ^ b) (ha126 : -126 ≤ a)
    (hb126 : b ≤ 126) : a + 127 ≤ b32Exp (rn32 x) ∧ b32Exp (rn32 x) ≤ b + 127 := by
  have hx := ne_zero_of_zpow_le_abs ha
  obtain ⟨e, hlo, hhi⟩ := exists_mem_Ico_zpow (y := (2 : ℚ)) (abs_pos.2 hx) one_lt_two
  have hae : a < e + 1 := (zpow_lt_zpow_iff_right₀ one_lt_two).1 (ha.trans_lt hhi)
  have heb : e ≤ b := (zpow_le_zpow_iff_right₀ one_lt_two).1 (hlo.trans hb)
  obtain ⟨hr1, hr2⟩ := roundedSig_exp_bounds hlo hhi
  constructor
  · rw [rn32_eq_packB32 hx (by omega) (by omega), b32Exp_packB32 _ _ (by omega)]
    omega
  · have hval : |val (rn32 x)| ≤ (1 : Int) * (2 : ℚ) ^ b :=
      abs_val_rn32_le hlo hhi (by omega) (by omega) (by omega) (by rwa [Int.cast_one, one_mul])
    rw [Int.cast_one, one_mul] at hval
    have hexp := zpow_b32Exp_le_abs_val (rn32_normal_half_ulp hlo hhi (by omega) (by omega)).1
    have := (zpow_le_zpow_iff_right₀ one_lt_two).1 (hexp.trans hval)
    omega

/-! ### The operations of EVAL-A on integers of 24 bits -/

/-- A difference of two integers is exact while it has no more than 24 bits (R115). -/
theorem val_b32Sub_of_int {a b : B32} {i j : Int} (ha : val a = i) (hb : val b = j) (h : |i - j| < 2 ^ 24) :
    val (b32Sub a b) = (i - j : Int) := by
  rw [b32Sub, ha, hb, ← Int.cast_sub, val_rn32_intCast h]

/-- A product of two integers is exact while it has no more than 24 bits (R115). -/
theorem val_b32Mul_of_int {a b : B32} {i j : Int} (ha : val a = i) (hb : val b = j) (h : |i * j| < 2 ^ 24) :
    val (b32Mul a b) = (i * j : Int) := by
  rw [b32Mul, ha, hb, ← Int.cast_mul, val_rn32_intCast h]

/-! ### The two evaluations of the scale law, each one rounding of a rational -/

/-- The full scales run from 2 g to 16 g (R110). -/
theorem rangeG_bounds (c : RangeCode) : 2 ≤ rangeG c ∧ rangeG c ≤ 16 := by
  revert c
  decide

theorem rangeG_cast (c : RangeCode) : (rangeG c : ℚ) = 2 ^ (c.toNat + 1) := by
  rw [rangeG, Int.cast_pow, Int.cast_ofNat]

/-- `R(c)` in units of `2^(c-15)`, the least magnitude of a result at range code `c` (R110, R121). -/
theorem rangeG_eq_units (c : RangeCode) : (rangeG c : ℚ) = 65536 * (2 : ℚ) ^ ((c.toNat : Int) - 15) := by
  rw [show (65536 : ℚ) = (2 : ℚ) ^ (16 : Int) by norm_num, ← zpow_add₀ two_ne_zero, rangeG_cast, ← zpow_natCast]
  congr 1
  push_cast
  ring

/-- A number of units `2^(c-15)`, none or from 1 to 131072 of them, is rounded to a number between the same integers (R117). -/
theorem val_rn32_units_bounds (c : RangeCode) {t : ℚ} (ht : t = 0 ∨ 1 ≤ t) (ht17 : t ≤ 131072) {i j : Int} (hi : i ≤ t)
    (hj : t ≤ j) :
    i * (2 : ℚ) ^ ((c.toNat : Int) - 15) ≤ val (rn32 (t * (2 : ℚ) ^ ((c.toNat : Int) - 15))) ∧
    val (rn32 (t * (2 : ℚ) ^ ((c.toNat : Int) - 15))) ≤ j * (2 : ℚ) ^ ((c.toNat : Int) - 15) := by
  have hunit : (0 : ℚ) < (2 : ℚ) ^ ((c.toNat : Int) - 15) := by positivity
  have hix := mul_le_mul_of_nonneg_right hi hunit.le
  have hjx := mul_le_mul_of_nonneg_right hj hunit.le
  rcases ht with rfl | ht
  · rw [zero_mul] at hix hjx ⊢
    rw [rn32_zero, val_zero]
    exact ⟨hix, hjx⟩
  · have hx := mul_pos (one_pos.trans_le ht) hunit
    have hlow := le_mul_of_one_le_left hunit.le ht
    have hhigh : t * (2 : ℚ) ^ ((c.toNat : Int) - 15) ≤ (2 : ℚ) ^ ((c.toNat : Int) + 2) :=
      calc _ ≤ 131072 * (2 : ℚ) ^ ((c.toNat : Int) - 15) := mul_le_mul_of_nonneg_right ht17 hunit.le
        _ = (2 : ℚ) ^ (17 + ((c.toNat : Int) - 15)) := by rw [zpow_add₀ two_ne_zero]; norm_num
        _ = _ := by congr 1; ring
    obtain ⟨e, hlo, hhi⟩ := exists_mem_Ico_zpow (y := (2 : ℚ)) hx one_lt_two
    have hc := rangeCode_lt c
    have he1 := (zpow_lt_zpow_iff_right₀ one_lt_two).1 (hlow.trans_lt hhi)
    have he2 := (zpow_le_zpow_iff_right₀ one_lt_two).1 (hlo.trans hhigh)
    rw [← abs_of_pos hx] at hlo hhi
    exact ⟨le_val_rn32 hlo hhi (by omega) (by omega) (by omega) hix,
      val_rn32_le hlo hhi (by omega) (by omega) (by omega) hjx⟩

section Sample

variable {v : Int} (hv1 : -32768 ≤ v) (hv2 : v ≤ 32767) (c : RangeCode)
include hv1 hv2

/-- EVAL-A without its exact steps: the quotient is rounded, then the sum (R115). -/
theorem scaleA_eq_rn32 :
    scaleA v c = rn32 (-(rangeG c : ℚ) + val (rn32 (((v : ℚ) + 32768) * (2 * rangeG c) / 65535))) := by
  obtain ⟨hr1, hr2⟩ := rangeG_bounds c
  have operand : ∀ i : Int, -16777216 < i → i < 16777216 → val (b32OfInt i) = i := fun i h1 h2 =>
    val_rn32_intCast (abs_lt.2 ⟨h1, h2⟩)
  have hmin : val (b32OfInt Config.vMin) = (-32768 : Int) := operand Config.vMin (by decide) (by decide)
  have hd1 := val_b32Sub_of_int (operand v (by omega) (by omega)) hmin (abs_lt.2 ⟨by omega, by omega⟩)
  have hminO := operand (minOut c) (by rw [minOut]; omega) (by rw [minOut]; omega)
  have hd2 := val_b32Sub_of_int (operand (maxOut c) (by rw [maxOut]; omega) (by rw [maxOut]; omega)) hminO
    (by rw [maxOut, minOut]; exact abs_lt.2 ⟨by omega, by omega⟩)
  have hp := val_b32Mul_of_int hd1 hd2 (by
    rw [maxOut, minOut, abs_mul, abs_of_nonneg (a := v - -32768) (by omega), abs_of_nonneg (by omega)]
    calc (v - -32768) * (rangeG c - -rangeG c) ≤ 65535 * 32 := mul_le_mul (by omega) (by omega) (by omega) (by omega)
      _ < 2 ^ 24 := by norm_num)
  have hd3 := val_b32Sub_of_int (operand Config.vMax (by decide) (by decide)) hmin (by decide)
  simp only [scaleA, b32Add, b32Div]
  rw [hminO, hp, hd3, minOut, maxOut]
  push_cast
  congr 4
  ring

/-- The rounded quotient of EVAL-A keeps a unit `2^(c-15)` away from `R(c)`, the point at which the law changes sign (R115). -/
theorem val_rn32_quotient_cases {q : ℚ} (hq : q = ((v : ℚ) + 32768) * (2 * rangeG c) / 65535) :
    (0 ≤ val (rn32 q) ∧ val (rn32 q) ≤ 65535 * (2 : ℚ) ^ ((c.toNat : Int) - 15)) ∨
    (65537 * (2 : ℚ) ^ ((c.toNat : Int) - 15) ≤ val (rn32 q) ∧
      val (rn32 q) ≤ 131072 * (2 : ℚ) ^ ((c.toNat : Int) - 15)) := by
  have hunits : q = (v + 32768) * 131072 / 65535 * (2 : ℚ) ^ ((c.toNat : Int) - 15) := by rw [hq, rangeG_eq_units]; ring
  have hv2' : (v : ℚ) ≤ 32767 := by exact_mod_cast hv2
  have hstep : (v + 32768) * 131072 / 65535 = (0 : ℚ) ∨ 1 ≤ ((v : ℚ) + 32768) * 131072 / 65535 := by
    rcases hv1.eq_or_lt with rfl | hlt
    · exact .inl (by norm_num)
    · have : (-32767 : ℚ) ≤ v := by exact_mod_cast hlt
      exact .inr (by linarith)
  rw [hunits]
  rcases lt_or_ge v 0 with hneg | hpos
  · have hv1' : (-32768 : ℚ) ≤ v := by exact_mod_cast hv1
    have hneg' : (v : ℚ) ≤ -1 := by exact_mod_cast Int.le_sub_one_of_lt hneg
    have h := val_rn32_units_bounds c hstep (by linarith) (i := 0) (j := 65535) (by push_cast; linarith)
      (by push_cast; linarith)
    exact .inl (by simpa using h)
  · have hpos' : (0 : ℚ) ≤ v := by exact_mod_cast hpos
    have h := val_rn32_units_bounds c hstep (by linarith) (i := 65537) (j := 131072) (by push_cast; linarith)
      (by push_cast; linarith)
    exact .inr (by simpa using h)

/-- Every result is one rounding of a rational between the smallest and the largest magnitude of R121. -/
theorem scale_eq_rn32 (ev : ScaleEval) :
    ∃ y : ℚ, scale ev v c = rn32 y ∧ (2 : ℚ) ^ ((c.toNat : Int) - 15) ≤ |y| ∧ |y| ≤ rangeG c := by
  have hunit : (0 : ℚ) < (2 : ℚ) ^ ((c.toNat : Int) - 15) := by positivity
  cases ev with
  | b32Stepwise =>
    refine ⟨_, scaleA_eq_rn32 hv1 hv2 c, ?_⟩
    have hcases := val_rn32_quotient_cases hv1 hv2 c rfl
    generalize val (rn32 _) = q at hcases ⊢
    rw [rangeG_eq_units]
    rcases hcases with ⟨h1, h2⟩ | ⟨h1, h2⟩
    · rw [abs_of_nonpos (by linarith)]
      constructor <;> linarith
    · rw [abs_of_nonneg (by linarith)]
      constructor <;> linarith
  | exactRn =>
    refine ⟨_, rfl, ?_⟩
    have hodd : (1 : ℚ) ≤ |2 * (v : ℚ) + 1| := by exact_mod_cast Int.one_le_abs (show 2 * v + 1 ≠ 0 by omega)
    have hmax : |2 * (v : ℚ) + 1| ≤ 65535 := by exact_mod_cast abs_le.2 ⟨show -65535 ≤ 2 * v + 1 by omega, by omega⟩
    have hscale : |(rangeG c : ℚ) * (2 * v + 1) / ((Config.vMax : ℚ) - Config.vMin)| =
        65536 / 65535 * |2 * (v : ℚ) + 1| * (2 : ℚ) ^ ((c.toNat : Int) - 15) := by
      rw [rangeG_eq_units, abs_div, abs_mul, abs_mul, abs_of_pos hunit]
      norm_num
      ring
    rw [hscale, rangeG_eq_units]
    exact ⟨le_mul_of_one_le_left hunit.le (by linarith), mul_le_mul_of_nonneg_right (by linarith) hunit.le⟩

/-- R121: the biased exponent of every result. -/
theorem b32Exp_scale_bounds (ev : ScaleEval) :
    112 + c.toNat ≤ b32Exp (scale ev v c) ∧ b32Exp (scale ev v c) ≤ 128 + c.toNat := by
  obtain ⟨y, hy, hlow, hhigh⟩ := scale_eq_rn32 hv1 hv2 c ev
  have hc := rangeCode_lt c
  have hrange : (rangeG c : ℚ) = (2 : ℚ) ^ ((c.toNat : Int) + 1) := by
    rw [rangeG_cast, ← zpow_natCast, Nat.cast_succ]
  rw [hrange] at hhigh
  obtain ⟨h1, h2⟩ := b32Exp_rn32_bounds hlow hhigh (by omega) (by omega)
  rw [hy]
  omega

/-- R113: the 20-bit pattern holds the exact product. -/
theorem fxPattern_toInt : (fxPattern v c).toInt = v * 2 ^ (c.toNat + 1) := by
  obtain ⟨hr1, hr2⟩ := rangeG_bounds c
  have hlow : -32768 * 16 ≤ v * rangeG c := by nlinarith
  have hhigh : v * rangeG c ≤ 32767 * 16 := by nlinarith
  exact tcN_fx_toInt (by rw [fxmul]; omega) (by rw [fxmul]; omega)

end Sample

/-! ### Responses -/

/-- The lane of any word is lawful at any range code (R113, R121). -/
theorem laneLawful_laneOf (p : Params) (c : RangeCode) (w : Word16) : LaneLawful p c (laneOf p.scaleEval c w) := by
  obtain ⟨h1, h2⟩ := sext16_bounds w
  exact ⟨fxPattern_toInt h1 h2 c, rfl, b32Exp_scale_bounds h1 h2 c p.scaleEval⟩

/-- A response without data is lawful, whatever its status (R66). -/
theorem responseLawful_of_no_data {p : Params} {r : ResponseBeat} (h : r.data = none) : ResponseLawful p r := by
  intro d hd
  cases h.symm.trans hd

/-- Three lanes scaled at `FS_Q` and reported `OK` are a lawful response (R66, R142). -/
theorem responseLawful_decodeLanes (p : Params) (c : RangeCode) (raw : RawSample) :
    ResponseLawful p { status := .ok, fsQ := c, data := some (decodeLanes p.scaleEval c raw) } := by
  rintro d ⟨⟩
  exact ⟨rfl, laneLawful_laneOf .., laneLawful_laneOf .., laneLawful_laneOf ..⟩

/-- The spec's step answers every beat with a lawful response. -/
theorem responseLawful_specStep (p : Params) (fsr : RangeCode) (b : CommandBeat) :
    ResponseLawful p (specStep p.scaleEval fsr b).2 := by
  by_cases h : b.cmd.toNat = 0x80
  · rw [specStep_decode h, ← decodeLanes_eq_specLanes]
    exact responseLawful_decodeLanes p fsr b.raw
  · apply responseLawful_of_no_data
    simp only [specStep, if_neg h]
    split_ifs <;> rfl

/-- One more lawful response keeps the invariant: it reads the parameters and the responses alone. -/
theorem inv_of_response {s t : State} {r : ResponseBeat} (h : Inv s) (hp : t.params = s.params)
    (hr : t.responses = s.responses ++ [r]) (hlawful : ResponseLawful s.params r) : Inv t := by
  obtain ⟨hwf, hall⟩ := h
  rw [Safety.Inv, hp, hr]
  refine ⟨hwf, fun r' hr' => ?_⟩
  rcases List.mem_append.1 hr' with hold | hnew
  · exact hall r' hold
  · rwa [List.mem_singleton.1 hnew]

/-- With nothing presented there is no step (R146). -/
theorem step_of_no_event {s : State} (h : s.pending = []) : step s = .fault .noCommandBeat := by
  simp only [step, (takeEvent_eq_none_iff s).2 h]

/-- Settles O54: a reset gives no response, and the response to a beat is lawful. -/
theorem everyStepKeepsTheInvariant : Obligations.EveryStepKeepsTheInvariant := by
  intro s t hinv hstep
  cases hp : s.pending with
  | nil => cases (step_of_no_event hp).symm.trans hstep
  | cons e rest =>
    cases e with
    | reset =>
      obtain rfl := Host.Outcome.next.inj ((step_of_reset hp).symm.trans hstep)
      exact hinv
    | beat b =>
      obtain rfl := Host.Outcome.next.inj ((stepRefinesTheSpecStep s b rest hp).symm.trans hstep)
      exact inv_of_response hinv rfl rfl (responseLawful_specStep s.params s.fsr b)

end Sys2Proof.Machine

/-! PROOFS. Command bytes and beats: the opcode map (R61, R62), decode against encode (R64, R71), the assembler's pseudo-commands
(R73), and what a reserved or a DECODE byte is answered (R63, R66). -/

namespace Sys2Proof.Machine

open Sys2Proof.Safety

/-! ### The fields of the command byte -/

section Fields

variable (op : BitVec 2) (fs : RangeCode) (xerr : Bool)

theorem cmdOp_packCmd : cmdOp (packCmd op fs xerr) = op := by
  revert op fs xerr
  decide

theorem cmdFs_packCmd : cmdFs (packCmd op fs xerr) = fs := by
  revert op fs xerr
  decide

theorem cmdRsv_packCmd : cmdRsv (packCmd op fs xerr) = 0#3 := by
  revert op fs xerr
  decide

theorem cmdXerr_packCmd : cmdXerr (packCmd op fs xerr) = xerr := by
  revert op fs xerr
  decide

end Fields

/-- A byte whose reserved bits are zero is its three other fields packed again (R61). -/
theorem packCmd_fields : ∀ cmd : CmdByte, cmdRsv cmd = 0#3 → packCmd (cmdOp cmd) (cmdFs cmd) (cmdXerr cmd) = cmd := by
  decide

/-- The row of NOP by fields (R62). -/
theorem nopRow_iff : ∀ cmd : CmdByte, cmd &&& 0xFF#8 = 0x00#8 ↔
    cmdOp cmd = 0b00#2 ∧ cmdFs cmd = 0#2 ∧ cmdRsv cmd = 0#3 ∧ cmdXerr cmd = false := by
  decide

/-- The row of SETFS by fields (R62). -/
theorem setfsRow_iff : ∀ cmd : CmdByte, cmd &&& 0xCE#8 = 0x40#8 ↔ cmdOp cmd = 0b01#2 ∧ cmdRsv cmd = 0#3 := by
  decide

/-- The row of DECODE by fields (R62). -/
theorem decodeRow_iff : ∀ cmd : CmdByte, cmd &&& 0xFE#8 = 0x80#8 ↔
    cmdOp cmd = 0b10#2 ∧ cmdFs cmd = 0#2 ∧ cmdRsv cmd = 0#3 := by
  decide

/-! ### The decoder, one equation per row -/

section DecodeRows

variable {b : CommandBeat}

theorem decodeBeat_of_nopRow (h : b.cmd &&& 0xFF#8 = 0x00#8) : decodeBeat b = .ok .nop := by
  have hrow : rowHits rowNop b.cmd = true := beq_iff_eq.2 h
  rw [decodeBeat, if_pos hrow]

theorem decodeBeat_of_setfsRow (h : b.cmd &&& 0xCE#8 = 0x40#8) :
    decodeBeat b = .ok (.setfs (cmdFs b.cmd) (cmdXerr b.cmd)) := by
  have hrow : rowHits rowSetfs b.cmd = true := beq_iff_eq.2 h
  have hop := (setfsRow_iff b.cmd).1 h
  have hnop : ¬ rowHits rowNop b.cmd = true := fun h' => by
    simp [(nopRow_iff b.cmd).1 (beq_iff_eq.1 h')] at hop
  rw [decodeBeat, if_neg hnop, if_pos hrow]

theorem decodeBeat_of_decodeRow (h : b.cmd &&& 0xFE#8 = 0x80#8) :
    decodeBeat b = .ok (.decode (cmdXerr b.cmd) b.raw) := by
  have hrow : rowHits rowDecode b.cmd = true := beq_iff_eq.2 h
  have hop := (decodeRow_iff b.cmd).1 h
  have hnop : ¬ rowHits rowNop b.cmd = true := fun h' => by
    simp [(nopRow_iff b.cmd).1 (beq_iff_eq.1 h')] at hop
  have hsetfs : ¬ rowHits rowSetfs b.cmd = true := fun h' => by
    simp [(setfsRow_iff b.cmd).1 (beq_iff_eq.1 h')] at hop
  rw [decodeBeat, if_neg hnop, if_neg hsetfs, if_pos hrow]

end DecodeRows

/-- No byte has the `OP` of two rows (R62). -/
theorem rows_disjoint (cmd : CmdByte) :
    ¬ (cmd &&& 0xFF#8 = 0x00#8 ∧ cmd &&& 0xCE#8 = 0x40#8) ∧ ¬ (cmd &&& 0xFF#8 = 0x00#8 ∧ cmd &&& 0xFE#8 = 0x80#8) ∧
    ¬ (cmd &&& 0xCE#8 = 0x40#8 ∧ cmd &&& 0xFE#8 = 0x80#8) := by
  rw [nopRow_iff, setfsRow_iff, decodeRow_iff]
  refine ⟨?_, ?_, ?_⟩ <;> rintro ⟨⟨h1, -⟩, h2, -⟩ <;> simp [h1] at h2

/-- The bytes that decode, in order, are the eleven of R62. -/
theorem decodable_bytes_eq_legalCmds :
    ((List.range 256).filter fun n =>
      (decodeBeat { cmd := BitVec.ofNat 8 n, raw := zeroRaw }).toOption.isSome).map (BitVec.ofNat 8) = legalCmds := by
  decide

/-- Settles O4: each row's equation of the decoder, and the rows differ in `OP`. -/
theorem opcodeMapByMaskAndMatch : Obligations.OpcodeMapByMaskAndMatch :=
  ⟨fun cmd raw => ⟨decodeBeat_of_nopRow (b := ⟨cmd, raw⟩), decodeBeat_of_setfsRow (b := ⟨cmd, raw⟩),
    decodeBeat_of_decodeRow (b := ⟨cmd, raw⟩)⟩, rows_disjoint, decodable_bytes_eq_legalCmds⟩

/-- Settles O5, by running the decoder on each word. -/
theorem wordsFromTheSpecDecode : Obligations.WordsFromTheSpecDecode := by
  refine ⟨?_, ?_, ?_, ?_, ?_, ?_⟩ <;> decide

/-! ### Decode against encode -/

/-- Decoding the bytes of a beat is decoding the beat (R71). -/
theorem decodeBytes_beatBytes (b : CommandBeat) : decodeBytes (beatBytes b) = decodeBeat b := rfl

/-- The decoder inverts the encoder (R62, R64). -/
theorem decodeBeat_encode (i : Instr) : decodeBeat (encode i) = .ok i := by
  cases i with
  | nop => exact decodeBeat_of_nopRow rfl
  | setfs c xerr =>
    have hrow : (encode (.setfs c xerr)).cmd &&& 0xCE#8 = 0x40#8 :=
      (setfsRow_iff _).2 ⟨cmdOp_packCmd .., cmdRsv_packCmd ..⟩
    rw [decodeBeat_of_setfsRow hrow, encode, cmdFs_packCmd, cmdXerr_packCmd]
  | decode xerr raw =>
    have hrow : (encode (.decode xerr raw)).cmd &&& 0xFE#8 = 0x80#8 :=
      (decodeRow_iff _).2 ⟨cmdOp_packCmd .., cmdFs_packCmd .., cmdRsv_packCmd ..⟩
    rw [decodeBeat_of_decodeRow hrow, encode, cmdXerr_packCmd]

/-- Settles O6: by the row of each command, as a beat and as its bytes. -/
theorem decodeInvertsEncode : Obligations.DecodeInvertsEncode :=
  fun i => ⟨decodeBeat_encode i, (decodeBytes_beatBytes _).trans (decodeBeat_encode i)⟩

/-- Settles O7: a byte that hits a row is its fields packed again. -/
theorem encodeInvertsDecode : Obligations.EncodeInvertsDecode := by
  intro b i h
  rcases decodeBeat_cases b with ⟨hcmd, hd⟩ | ⟨hrow, hd⟩ | ⟨hrow, hd⟩ | ⟨-, hd⟩
  · obtain rfl := Except.ok.inj (hd.symm.trans h)
    exact ⟨hcmd.symm, nofun⟩
  · obtain rfl := Except.ok.inj (hd.symm.trans h)
    obtain ⟨hop, hrsv⟩ := (setfsRow_iff b.cmd).1 hrow
    exact ⟨by rw [encode, ← hop, packCmd_fields b.cmd hrsv], nofun⟩
  · obtain rfl := Except.ok.inj (hd.symm.trans h)
    obtain ⟨hop, hfs, hrsv⟩ := (decodeRow_iff b.cmd).1 hrow
    have hbeat : encode (.decode (cmdXerr b.cmd) b.raw) = b := by
      rw [encode, ← hop, ← hfs, packCmd_fields b.cmd hrsv]
    exact ⟨congrArg CommandBeat.cmd hbeat, fun _ _ hi => hi ▸ hbeat⟩
  · cases hd.symm.trans h

/-! ### The assembler -/

theorem assemble_of_wf {l : AsmLine} (h : l.wf = true) : assemble l = some (assembleLine l) := if_pos h

/-- The low byte of a word as a numeral (R73). -/
theorem sampleLow_eq_ofNat (v : Int) : sampleLow v = BitVec.ofNat 8 ((v % 65536).toNat % 256) := by
  apply BitVec.eq_of_toNat_eq
  simp [sampleLow, BitVec.extractLsb'_toNat, BitVec.toNat_ofInt]

/-- The high byte of a word as a numeral (R73). -/
theorem sampleHigh_eq_ofNat (v : Int) : sampleHigh v = BitVec.ofNat 8 ((v % 65536).toNat / 256) := by
  apply BitVec.eq_of_toNat_eq
  simp [sampleHigh, BitVec.extractLsb'_toNat, BitVec.toNat_ofInt, Nat.shiftRight_eq_div_pow]

theorem isSample_of_bounds {v : Int} (h1 : -32768 ≤ v) (h2 : v ≤ 32767) : isSample v = true := by
  simp [isSample, h1, h2]

/-- The six numerals of a DECODEW are bytes (R72, R73). -/
theorem decode_word_bytes_wf (x y z : Int) :
    (AsmLine.decode [(x % 65536).toNat % 256, (x % 65536).toNat / 256, (y % 65536).toNat % 256, (y % 65536).toNat / 256,
      (z % 65536).toNat % 256, (z % 65536).toNat / 256]).wf = true := by
  have low : ∀ n : Nat, isByte (n % 256) = true := fun n => decide_eq_true (Nat.mod_lt n (by norm_num))
  have high : ∀ v : Int, isByte ((v % 65536).toNat / 256) = true := fun v => decide_eq_true (by omega)
  simp [AsmLine.wf, isRaw, low, high]

/-- The full-scale numeral `2^(c+1)` is one of the four a SETFS.G takes (R73). -/
theorem setfsG_wf (c : RangeCode) (fail : Bool) : (AsmLine.setfsG (2 ^ (c.toNat + 1)) fail).wf = true := by
  revert c fail
  decide

/-- Settles O8: both lines pass the operand checks and denote the same beat. -/
theorem pseudoCommandsExpand : Obligations.PseudoCommandsExpand := by
  constructor
  · intro c fail
    have hsetfs : (AsmLine.setfs c.toNat fail).wf = true := decide_eq_true (rangeCode_lt c)
    rw [assemble_of_wf (setfsG_wf c fail), assemble_of_wf hsetfs, assembleLine, assembleLine, Nat.log2_two_pow,
      Nat.add_sub_cancel, BitVec.ofNat_toNat, BitVec.setWidth_eq]
    exact ⟨rfl, rfl⟩
  · intro x y z hx1 hx2 hy1 hy2 hz1 hz2
    have hdecodew : (AsmLine.decodew x y z).wf = true := by
      rw [AsmLine.wf, isSample_of_bounds hx1 hx2, isSample_of_bounds hy1 hy2, isSample_of_bounds hz1 hz2]
      rfl
    rw [assemble_of_wf hdecodew, assemble_of_wf (decode_word_bytes_wf x y z), assembleLine, assembleLine, rawOfWords, rawOfNats]
    simp only [sampleLow_eq_ofNat, sampleHigh_eq_ofNat, Option.isSome_some, and_self]

/-! ### Steps by the command byte -/

/-- Settles O10: the placed word's beat is the oldest event, and the state without it is the state before. -/
theorem placedWordIsRunNext : Obligations.PlacedWordIsRunNext := by
  intro s nbits w i h
  have hd : decodeBeat (beatOfWord nbits w) = .ok i := by
    unfold decodeTableWord at h
    split at h
    · rename_i j hj
      rw [hj, Option.some.inj h]
    · cases h
  exact step_of_decode_ok (s := s.withFetchWord nbits w) rfl hd

/-- The reserved bytes of R63 are those that are none of the eleven of R62. -/
theorem reserved_iff_not_legal : ∀ cmd : CmdByte,
    (0xC0 ≤ cmd.toNat ∨ cmd.extractLsb' 1 3 ≠ 0#3 ∨ (0x01 ≤ cmd.toNat ∧ cmd.toNat ≤ 0x3F) ∨
      (0x90 ≤ cmd.toNat ∧ cmd.toNat ≤ 0xBF)) ↔ cmd ∉ legalCmds := by
  decide

/-- Every command is encoded as a legal beat (R62). -/
theorem encode_wf (i : Instr) : (encode i).wf = true := by
  cases i with
  | nop => exact Laws.EncodesLegal.nop
  | setfs c xerr => exact Laws.EncodesLegal.setfs c xerr
  | decode xerr raw => exact Laws.EncodesLegal.decode xerr raw

/-- The decoder answers a command exactly on the legal bytes (R62, R63). -/
theorem decodeBeat_ok_iff_legal (b : CommandBeat) : (∃ i, decodeBeat b = .ok i) ↔ b.cmd ∈ legalCmds := by
  constructor
  · rintro ⟨i, hd⟩
    obtain ⟨hcmd, -⟩ := encodeInvertsDecode b i hd
    exact hcmd ▸ List.contains_iff_mem.1 (encode_wf i)
  · intro hlegal
    rcases decodeBeat_cases b with ⟨-, hd⟩ | ⟨-, hd⟩ | ⟨-, hd⟩ | ⟨hwf, -⟩
    · exact ⟨_, hd⟩
    · exact ⟨_, hd⟩
    · exact ⟨_, hd⟩
    · cases hwf.symm.trans (List.contains_iff_mem.2 hlegal)

/-- Settles O12: a reserved byte is refused by the decoder, every other byte decodes. -/
theorem reservedByteAnswersIllegalCommand : Obligations.ReservedByteAnswersIllegalCommand := by
  intro s b rest h
  rw [reserved_iff_not_legal, not_not, ← decodeBeat_ok_iff_legal]
  constructor
  · intro hillegal
    cases hd : decodeBeat b with
    | ok i => exact absurd ⟨i, hd⟩ hillegal
    | error e =>
      rw [step_of_decode_error h hd, raiseError_eq]
      rfl
  · rintro ⟨i, hd⟩
    exact ⟨i, hd, step_of_decode_ok h hd⟩

/-- The response a step adds for a beat is the spec's (R7, R146). -/
theorem response_of_step {s t : State} {b : CommandBeat} {rest : List HostEvent} {r : ResponseBeat}
    (h : s.pending = .beat b :: rest) (hstep : step s = .next t) (hr : t.responses = s.responses ++ [r]) :
    r = (specStep s.params.scaleEval s.fsr b).2 := by
  obtain rfl := Host.Outcome.next.inj ((stepRefinesTheSpecStep s b rest h).symm.trans hstep)
  exact (List.singleton_inj.1 (List.append_cancel_left hr)).symm

/-- Settles O17, by the decoder's cases on the numeric byte: only 0x80 is answered with lanes. -/
theorem dataPresentExactlyOnSuccessfulDecode : Obligations.DataPresentExactlyOnSuccessfulDecode := by
  intro s t b rest r h hstep hr
  obtain rfl := response_of_step h hstep hr
  have hbyte : b.cmd = 0x80#8 ↔ b.cmd.toNat = 0x80 := BitVec.toNat_inj.symm
  rw [hbyte]
  rcases decodeBeat_byte_cases b with ⟨hn, hd⟩ | ⟨hn, hd⟩ | ⟨hn, hd⟩ | ⟨hn, -⟩ | ⟨hn, e, hd⟩
  · simp [specStep_nop hn, hd, hn]
  · have hne : b.cmd.toNat ≠ 0x80 := fun h80 => by simp [h80] at hn
    simp [specStep_setfs hn, hd, hne]
  · simp [specStep_decode hn, hd, hn]
  · have hne : b.cmd.toNat ≠ 0x80 := fun h80 => by simp [h80] at hn
    simp [specStep_fail hn, hne]
  · have hne : b.cmd.toNat ≠ 0x80 := fun h80 => by simp [h80] at hn
    simp [specStep_illegal hn, hne]

/-! ### The full-scale field of a control byte -/

/-- The field of R65 fits a byte and every range code fits the field, so the driver's write is never refused (R173, R177). -/
theorem fullScaleByte_eq (old : Byte) (c : RangeCode) :
    fullScaleByte old c = some ((old &&& ~~~0x30#8) ||| (BitVec.ofNat 8 (c.toNat * 16) &&& 0x30#8)) :=
  if_pos ⟨by decide, rangeCode_lt c⟩

/-- Settles O56: the mask clears the field in the old byte and keeps the code in the new one. -/
theorem fullScaleByteHoldsTheRangeCode : Obligations.FullScaleByteHoldsTheRangeCode := by
  intro old c
  refine ⟨_, fullScaleByte_eq old c, ?_⟩
  have hcleared : rangeOfControl (old &&& ~~~0x30#8) = 0#2 := by
    rw [rangeOfControl, BitVec.extractLsb'_and]
    exact BitVec.and_zero
  have hwritten : rangeOfControl (BitVec.ofNat 8 (c.toNat * 16) &&& 0x30#8) = c := by
    revert c
    decide
  rw [rangeOfControl, BitVec.extractLsb'_or]
  exact (congrArg₂ (· ||| ·) hcleared hwritten).trans BitVec.zero_or

end Sys2Proof.Machine

/-! PROOFS. The product `FX`, the ratio `g` and the law `f` side by side (R113, R114). -/

namespace Sys2Proof.Machine

/-- Settles O30: the law is the ratio of one count more, over 65535 instead of 65536. -/
theorem lawExceedsRatioByAtMostOneCount : Obligations.LawExceedsRatioByAtMostOneCount := by
  intro v c hv1 hv2
  have hv1' : (-32768 : ℚ) ≤ v := by exact_mod_cast hv1
  have hv2' : (v : ℚ) ≤ 32767 := by exact_mod_cast hv2
  have hpos : (0 : ℚ) < 2 ^ (c.toNat + 1) := by positivity
  have hdiff : law v c - ratioG v c = 2 ^ (c.toNat + 1) * ((v : ℚ) + 32768) / (65535 * 32768) := by
    rw [law, ratioG, maxOut, minOut]
    push_cast
    rw [rangeG_cast]
    norm_num
    ring
  refine ⟨?_, ?_, hdiff, ?_, ?_⟩
  · rw [fxValue, fxPattern_toInt hv1 hv2 c, ratioG, rangeG_cast]
    push_cast
    rfl
  · rw [law, fxmul, maxOut, minOut]
    push_cast
    rw [rangeG_cast]
    norm_num
    ring
  · rw [hdiff]
    have : (0 : ℚ) ≤ v + 32768 := by linarith
    positivity
  · have htop := mul_le_mul_of_nonneg_left (show (v : ℚ) + 32768 ≤ 65535 by linarith) hpos.le
    rw [hdiff]
    linarith

end Sys2Proof.Machine

/-! PROOFS. The unpack stages: UNPACK and its inverse (R90, R92), SEXT and its inverse (R91, R92), and the view of a word as
significant bits above pad bits (R93 to R95). -/

namespace Sys2Proof.Machine

/-! ### UNPACK and the bytes of a word -/

theorem extractHigh_unpack (lo hi : Byte) : (unpack lo hi).extractLsb' 8 8 = hi := by
  rw [unpack_eq_append]
  exact BitVec.extractLsb'_append_eq_left

theorem extractLow_unpack (lo hi : Byte) : (unpack lo hi).extractLsb' 0 8 = lo := by
  rw [unpack_eq_append]
  exact BitVec.extractLsb'_append_eq_right

theorem unpack_extract (w : Word16) : unpack (w.extractLsb' 0 8) (w.extractLsb' 8 8) = w := by
  rw [unpack_eq_append]
  exact (BitVec.extractLsb'_append_extractLsb'_eq_extractLsb' (Nat.zero_add 8).symm).trans BitVec.extractLsb'_eq_self

/-- UNPACK is a bijection from byte pairs to words (R90, R92). -/
theorem unpack_eq_iff {lo hi : Byte} {w : Word16} :
    unpack lo hi = w ↔ lo = w.extractLsb' 0 8 ∧ hi = w.extractLsb' 8 8 := by
  constructor
  · rintro rfl
    exact ⟨(extractLow_unpack lo hi).symm, (extractHigh_unpack lo hi).symm⟩
  · rintro ⟨rfl, rfl⟩
    exact unpack_extract w

/-- Settles O24: UNPACK is the high byte appended above the low byte. -/
theorem unpackIsLittleEndian : Obligations.UnpackIsLittleEndian :=
  fun lo hi => ⟨unpack_toNat lo hi, extractHigh_unpack lo hi, extractLow_unpack lo hi⟩

/-! ### SEXT and the pattern of its integer -/

/-- The pattern of a word's integer at any width is the word's sign extension (R11, R91). -/
theorem tcN_sext16 (n : Nat) (w : Word16) : tcN n (sext16 w) = w.signExtend n := rfl

/-- SEXT is a bijection from words to the sample domain, with inverse `tc_16` (R11, R91). -/
theorem sext16_eq_iff {w : Word16} {v : Int} (hv1 : -32768 ≤ v) (hv2 : v ≤ 32767) : sext16 w = v ↔ w = tcN 16 v := by
  constructor
  · rintro rfl
    rw [tcN_sext16, BitVec.signExtend_eq]
  · rintro rfl
    exact tcN_word_toInt hv1 hv2

/-- Settles O26: sign extension copies the most significant bit, bit 15. -/
theorem sextReadsTwosComplement : Obligations.SextReadsTwosComplement := by
  refine fun w => ⟨word_toInt w, fun n i _ hi => ?_⟩
  rw [tcN_sext16, BitVec.getLsbD_signExtend, decide_eq_true hi, Bool.true_and, BitVec.msb_eq_getLsbD_last]
  rfl

/-- Settles O27: UNPACK and SEXT are each a bijection, and bit 7 of the high byte is the sign bit of the word. -/
theorem unpackThenSextIsABijection : Obligations.UnpackThenSextIsABijection := by
  refine ⟨fun lo hi => sext16_bounds _, fun v hv1 hv2 lo hi => ?_, fun lo hi => ?_⟩
  · rw [sext16_eq_iff hv1 hv2, unpack_eq_iff]
  · have hlo := byte_lt lo
    have hhi := byte_lt hi
    rw [sext16_unpack]
    split <;> omega

/-! ### The view of a word as significant bits above pad bits -/

/-- The significant bits above the pad bits are the word (R95). -/
theorem toInt_sigView_append_padView {n : Nat} (hn : n ≤ 16) (w : Word16) :
    (sigView n w ++ padView n w).toInt = sext16 w := by
  have hwidth : n + (Config.wordBits - n) = 16 := Nat.add_sub_cancel' hn
  rw [sigView, padView, BitVec.extractLsb'_append_extractLsb'_eq_extractLsb' (Nat.zero_add _).symm, hwidth,
    BitVec.extractLsb'_eq_self, sext16]

/-- The integer of a word is the integer of its significant bits above the number of its pad bits (R95). -/
theorem sext16_eq_sigView_padView {n : Nat} (hn1 : 1 ≤ n) (hn2 : n ≤ 16) (w : Word16) :
    sext16 w = 2 ^ (16 - n) * (sigView n w).toInt + (padView n w).toNat := by
  have hne : ¬ (n == 0) = true := by rw [beq_iff_eq]; omega
  rw [← toInt_sigView_append_padView hn2, BitVec.toInt_append, if_neg hne]

/-- The view at the block's own `SIG_BITS` (R93, R94). -/
theorem sext16_eq_s12_pad (w : Word16) : sext16 w = 16 * (s12 w).toInt + (pad w).toNat :=
  sext16_eq_sigView_padView (n := 12) (by decide) (by decide) w

theorem pad_le (w : Word16) : (pad w).toNat ≤ 15 := Nat.le_of_lt_succ (pad w).isLt

/-- Settles O28: two's complement of significant bits appended above pad bits. -/
theorem sampleViewSplitsTheWord : Obligations.SampleViewSplitsTheWord := by
  refine ⟨fun w n hn1 hn2 => ?_, fun w => ?_, fun w c hpad => ?_⟩
  · exact ⟨sext16_eq_sigView_padView hn1 hn2 w, BitVec.le_toInt _, BitVec.toInt_lt⟩
  · have hsplit := sext16_eq_s12_pad w
    have hpad := pad_le w
    exact ⟨by omega, hsplit, hpad⟩
  · have hsplit : sext16 w = 16 * (s12 w).toInt := by
      rw [sext16_eq_s12_pad w, hpad]
      exact add_zero _
    rw [fxmul, rangeG, hsplit]
    ring

end Sys2Proof.Machine

/-! PROOFS. The three lanes of DECODE (R124) and the product `FX` (R113). -/

namespace Sys2Proof.Machine

open Sys2Proof.Safety

/-- Settles O21: the lane of the spec's arithmetic is the function, and `decodeLanes` is three uses of it. -/
theorem lanesAreIndependent : Obligations.LanesAreIndependent := by
  intro ev
  refine ⟨specLane ev, fun s raw hev => ?_⟩
  rw [← decodeLanes_eq_specLanes, ← hev]
  rfl

/-- The multiplier by `R(c)` is a left shift by `c + 1` places (R113). -/
theorem fxPattern_eq_shiftLeft (v : Int) (c : RangeCode) : fxPattern v c = tcN Config.fxBits v <<< (c.toNat + 1) := by
  rw [fxPattern, fxmul, rangeG, BitVec.shiftLeft_eq_mul_twoPow, tcN, tcN, BitVec.ofInt_mul]
  congr 1
  rcases rangeCode_cases c with rfl | rfl | rfl | rfl <;> rfl

/-- Settles O29: the product is exact at 20 bits, and it is a shift, which brings in zeros. -/
theorem fixedPointProductIsExact : Obligations.FixedPointProductIsExact := by
  refine ⟨fun v c hv1 hv2 => ?_, fun w c => fxPattern_eq_shiftLeft (sext16 w) c⟩
  obtain ⟨hr1, hr2⟩ := rangeG_bounds c
  refine ⟨fxPattern_toInt hv1 hv2 c, ?_, ?_, fun i hi => ?_⟩
  · change -524288 ≤ v * rangeG c
    nlinarith
  · change v * rangeG c ≤ 524272
    nlinarith
  · rw [fxPattern_eq_shiftLeft, BitVec.getLsbD_shiftLeft]
    simp [hi]

end Sys2Proof.Machine

/-! PROOFS. The scale law as an exact function: its closed forms (R111) and its properties (R112). -/

namespace Sys2Proof.Machine

theorem law_eq (v : Int) (c : RangeCode) : law v c = 2 ^ (c.toNat + 1) * (2 * (v : ℚ) + 1) / 65535 := by
  rw [law, maxOut, minOut]
  push_cast
  rw [rangeG_cast]
  norm_num
  ring

/-- Settles O31: both forms are the written formula over the denominator 65535. -/
theorem scaleLawInClosedForm : Obligations.ScaleLawInClosedForm := by
  refine fun v c => ⟨?_, law_eq v c⟩
  rw [law_eq]
  ring

theorem law_min (c : RangeCode) : law (-32768) c = -(2 ^ (c.toNat + 1)) := by
  rw [law_eq]
  push_cast
  ring

theorem law_max (c : RangeCode) : law 32767 c = 2 ^ (c.toNat + 1) := by
  rw [law_eq]
  push_cast
  ring

/-- R112 (d). -/
theorem law_reflect (v : Int) (c : RangeCode) : law (-1 - v) c = -law v c := by
  rw [law_eq, law_eq]
  push_cast
  ring

theorem law_sub (v w : Int) (c : RangeCode) : law w c - law v c = 2 * 2 ^ (c.toNat + 1) / 65535 * ((w : ℚ) - v) := by
  rw [law_eq, law_eq]
  ring

theorem rangeCode_zero_toNat : (0 : RangeCode).toNat = 0 := rfl

/-- R112 (f). -/
theorem law_eq_mul_law_zero (v : Int) (c : RangeCode) : law v c = 2 ^ c.toNat * law v 0 := by
  rw [law_eq, law_eq, rangeCode_zero_toNat]
  ring

theorem abs_law (v : Int) (c : RangeCode) : |law v c| = 2 ^ (c.toNat + 1) * |2 * (v : ℚ) + 1| / 65535 := by
  have hR : (0 : ℚ) < 2 ^ (c.toNat + 1) := by positivity
  rw [law_eq, abs_div, abs_mul, abs_of_pos hR, abs_of_pos (a := 65535) (by norm_num)]

/-- R112 (b): `2*v + 1` is odd, so it is no less than 1 in magnitude. -/
theorem le_abs_law (v : Int) (c : RangeCode) : 2 ^ (c.toNat + 1) / 65535 ≤ |law v c| := by
  have hodd : (1 : ℚ) ≤ |2 * (v : ℚ) + 1| := by exact_mod_cast Int.one_le_abs (show 2 * v + 1 ≠ 0 by omega)
  rw [abs_law]
  gcongr
  exact le_mul_of_one_le_right (by positivity) hodd

/-- The law does not leave the output range (R111). -/
theorem abs_law_le {v : Int} (hv1 : -32768 ≤ v) (hv2 : v ≤ 32767) (c : RangeCode) : |law v c| ≤ 2 ^ (c.toNat + 1) := by
  have hmax : |2 * (v : ℚ) + 1| ≤ 65535 := by exact_mod_cast abs_le.2 ⟨show -65535 ≤ 2 * v + 1 by omega, by omega⟩
  rw [abs_law, div_le_iff₀ (by norm_num)]
  gcongr

/-- R112 (c): the law has the sign of the odd number `2*v + 1`. -/
theorem law_sign (v : Int) (c : RangeCode) : (0 < law v c ↔ 0 ≤ v) ∧ (law v c < 0 ↔ v ≤ -1) := by
  have hfactor : law v c = (2 * v + 1 : Int) * ((2 : ℚ) ^ (c.toNat + 1) / 65535) := by
    rw [law_eq]
    push_cast
    ring
  have hpos : (0 : ℚ) < 2 ^ (c.toNat + 1) / 65535 := by positivity
  rw [hfactor]
  constructor
  · rw [mul_pos_iff_of_pos_right hpos, Int.cast_pos]
    omega
  · rw [← not_le, mul_nonneg_iff_of_pos_right hpos, not_le, Int.cast_lt_zero]
    omega

/-- Settles O32, one property after the other. -/
theorem scaleLawProperties : Obligations.ScaleLawProperties := by
  refine fun c => ⟨law_min c, law_max c, fun v => le_abs_law v c, fun v => law_sign v c, fun v => law_reflect v c,
    fun v => ?_, fun v => law_eq_mul_law_zero v c, ?_⟩
  · rw [law_sub]
    push_cast
    ring
  · rw [law_eq]
    norm_num

/-- R112 (g): 65535 is odd, so it divides `2*v + 1` where the law is dyadic, and it divides only `±65535` among these. -/
theorem end_point_of_law_dyadic {v : Int} {c : RangeCode} (hv1 : -32768 ≤ v) (hv2 : v ≤ 32767) {m : Int} {k : Nat}
    (h : law v c * 2 ^ k = m) : v = -32768 ∨ v = 32767 := by
  have hint : 2 ^ (c.toNat + 1 + k) * (2 * v + 1) = 65535 * m := by
    rw [law_eq] at h
    have : (2 : ℚ) ^ (c.toNat + 1 + k) * (2 * v + 1) = 65535 * m := by
      rw [← h, pow_add]
      ring
    exact_mod_cast this
  have hcoprime : IsCoprime (65535 : Int) (2 ^ (c.toNat + 1 + k)) :=
    IsCoprime.pow_right (Int.isCoprime_iff_gcd_eq_one.2 (by decide))
  obtain ⟨d, hd⟩ := hcoprime.dvd_of_dvd_mul_left ⟨m, hint⟩
  have hd1 : -1 ≤ d := by linarith
  have hd2 : d ≤ 1 := by linarith
  interval_cases d <;> omega

/-- Settles O33: at the end points the law is an integer. -/
theorem scaleLawIsDyadicOnlyAtEndPoints : Obligations.ScaleLawIsDyadicOnlyAtEndPoints := by
  refine fun v c hv1 hv2 => ⟨fun ⟨m, k, h⟩ => end_point_of_law_dyadic hv1 hv2 h, ?_⟩
  rintro (rfl | rfl)
  · exact ⟨-2 ^ (c.toNat + 1), 0, by rw [law_min]; push_cast; ring⟩
  · exact ⟨2 ^ (c.toNat + 1), 0, by rw [law_max]; push_cast; ring⟩

end Sys2Proof.Machine

/-! PROOFS. `RN32` of a rational from its largest possible magnitude alone: its error, what it does not pass and what it keeps
(R117). -/

namespace Sys2Proof.Machine

/-- Powers of two around a rational's magnitude bound its exponent (R117). -/
theorem exists_exponent_of_bounds {x : ℚ} {a b : Int} (ha : (2 : ℚ) ^ a ≤ |x|) (hb : |x| ≤ (2 : ℚ) ^ b) :
    ∃ e : Int, a ≤ e ∧ e ≤ b ∧ (2 : ℚ) ^ e ≤ |x| ∧ |x| < (2 : ℚ) ^ (e + 1) := by
  obtain ⟨e, hlo, hhi⟩ := exists_mem_Ico_zpow (y := (2 : ℚ)) (abs_pos.2 (ne_zero_of_zpow_le_abs ha)) one_lt_two
  have hae : a < e + 1 := (zpow_lt_zpow_iff_right₀ one_lt_two).1 (ha.trans_lt hhi)
  exact ⟨e, by omega, (zpow_le_zpow_iff_right₀ one_lt_two).1 (hlo.trans hb), hlo, hhi⟩

section Bounded

variable {x : ℚ} {m : Int} (hx : x = 0 ∨ (2 : ℚ) ^ (-126 : Int) ≤ |x|) (hm : |x| ≤ (2 : ℚ) ^ m) (hm126 : m ≤ 126)
include hx hm hm126

/-- A rational of magnitude at most `2^m` is kept, as 0 and `±2^m` are, or it has an exponent below `m`. -/
theorem val_rn32_eq_or_exponent_lt :
    val (rn32 x) = x ∨ ∃ e : Int, -126 ≤ e ∧ e < m ∧ (2 : ℚ) ^ e ≤ |x| ∧ |x| < (2 : ℚ) ^ (e + 1) := by
  rcases hx with rfl | hx
  · exact .inl (by rw [rn32_zero, val_zero])
  obtain ⟨e, he1, he2, hlo, hhi⟩ := exists_exponent_of_bounds hx hm
  rcases he2.lt_or_eq with hlt | rfl
  · exact .inr ⟨e, he1, hlt, hlo, hhi⟩
  · left
    rcases eq_or_eq_neg_of_abs_eq (hm.antisymm hlo) with h | h
    · exact rn32_exact (j := 1) (k := e) (by rw [h]; push_cast; ring) (by omega) hlo hhi (by omega) hm126
    · exact rn32_exact (j := -1) (k := e) (by rw [h]; push_cast; ring) (by omega) hlo hhi (by omega) hm126

/-- The rounding error of a number up to `2^m` is at most half a unit of the numbers below it. -/
theorem abs_val_rn32_sub_le : |val (rn32 x) - x| ≤ (2 : ℚ) ^ (m - 25) := by
  rcases val_rn32_eq_or_exponent_lt hx hm hm126 with h | ⟨e, he1, he2, hlo, hhi⟩
  · rw [h, sub_self, abs_zero]
    positivity
  · exact (rn32_normal_half_ulp hlo hhi he1 (by omega)).2.trans (zpow_le_zpow_right₀ one_le_two (by omega))

/-- Rounding a number up to `2^m` does not pass a multiple of `2^(m-24)` below it. -/
theorem multiple_le_val_rn32 {j k : Int} (hk : m - 24 ≤ k) (h : j * (2 : ℚ) ^ k ≤ x) :
    j * (2 : ℚ) ^ k ≤ val (rn32 x) := by
  rcases val_rn32_eq_or_exponent_lt hx hm hm126 with heq | ⟨e, he1, he2, hlo, hhi⟩
  · rwa [heq]
  · exact le_val_rn32 hlo hhi he1 (by omega) (by omega) h

/-- Rounding a number up to `2^m` does not pass a multiple of `2^(m-24)` above it. -/
theorem val_rn32_le_multiple {j k : Int} (hk : m - 24 ≤ k) (h : x ≤ j * (2 : ℚ) ^ k) :
    val (rn32 x) ≤ j * (2 : ℚ) ^ k := by
  rcases val_rn32_eq_or_exponent_lt hx hm hm126 with heq | ⟨e, he1, he2, hlo, hhi⟩
  · rwa [heq]
  · exact val_rn32_le hlo hhi he1 (by omega) (by omega) h

end Bounded

/-- Every multiple of a power of two by an integer of 24 bits, or by `±2^24`, is a binary32 number (R117). -/
theorem val_rn32_multiple {j k : Int} (hj : |j| ≤ 2 ^ 24) (hk1 : -126 ≤ k) (hk2 : k ≤ 102) :
    val (rn32 (j * (2 : ℚ) ^ k)) = j * (2 : ℚ) ^ k := by
  have hu : (0 : ℚ) < (2 : ℚ) ^ k := by positivity
  have habs : |(j : ℚ) * (2 : ℚ) ^ k| = |(j : ℚ)| * (2 : ℚ) ^ k := by rw [abs_mul, abs_of_pos hu]
  have hx : (j : ℚ) * (2 : ℚ) ^ k = 0 ∨ (2 : ℚ) ^ (-126 : Int) ≤ |(j : ℚ) * (2 : ℚ) ^ k| := by
    rcases eq_or_ne j 0 with rfl | hne
    · exact .inl (by rw [Int.cast_zero, zero_mul])
    · have hone : (1 : ℚ) ≤ |(j : ℚ)| := by exact_mod_cast Int.one_le_abs hne
      rw [habs]
      exact .inr ((zpow_le_zpow_right₀ one_le_two hk1).trans (le_mul_of_one_le_left hu.le hone))
  have hm : |(j : ℚ) * (2 : ℚ) ^ k| ≤ (2 : ℚ) ^ (k + 24) := by
    have hj' : |(j : ℚ)| ≤ 2 ^ 24 := by exact_mod_cast hj
    rw [habs, zpow_add₀ two_ne_zero, mul_comm]
    exact mul_le_mul_of_nonneg_left hj' hu.le
  exact (val_rn32_le_multiple hx hm (by omega) (by omega) le_rfl).antisymm
    (multiple_le_val_rn32 hx hm (by omega) (by omega) le_rfl)

section Normal

variable {x : ℚ} {a b : Int} (ha : (2 : ℚ) ^ a ≤ |x|) (hb : |x| ≤ (2 : ℚ) ^ b) (ha126 : -126 ≤ a)
include ha hb ha126

/-- A number of magnitude `2^a` at least is rounded to a multiple of the unit there, `2^(a-23)`. -/
theorem val_rn32_eq_multiple (hb126 : b ≤ 126) : ∃ j : Int, val (rn32 x) = j * (2 : ℚ) ^ (a - 23) := by
  obtain ⟨e, hae, heb, hlo, hhi⟩ := exists_exponent_of_bounds ha hb
  obtain ⟨i, hi⟩ := val_rn32_eq_units hlo hhi (by omega) (by omega)
  obtain ⟨j, hj⟩ := mul_zpow_eq_units (e := a) (k := e - 23) (by omega) i
  exact ⟨j, hi.trans hj⟩

/-- The exponent of the rounded significand, from bounds on the magnitude. -/
theorem roundedSig_exp_of_bounds :
    -126 ≤ (roundedSig x.num.natAbs x.den).2 ∧ (roundedSig x.num.natAbs x.den).2 ≤ b + 1 := by
  obtain ⟨e, hae, heb, hlo, hhi⟩ := exists_exponent_of_bounds ha hb
  obtain ⟨hr1, hr2⟩ := roundedSig_exp_bounds hlo hhi
  omega

end Normal

end Sys2Proof.Machine

/-! PROOFS. SCALE: both evaluations as one last rounding (R115, R116), their error and order against the law (R118), the change of
range (R119) and the numbers they reach (R120, R121). -/

namespace Sys2Proof.Machine

/-! ### The rational that is rounded last -/

/-- The quotient of EVAL-A before its rounding, `(v + 32768) * 2^(c+2) / 65535` (R115). -/
def exactQuotient (v : Int) (c : RangeCode) : ℚ := ((v : ℚ) + 32768) * 2 ^ (c.toNat + 2) / 65535

/-- The rational of which each evaluation's result is the rounding: for EVAL-A the sum with the rounded quotient, for EVAL-B
the law itself (R115, R116). -/
def lastRounded (ev : ScaleEval) (v : Int) (c : RangeCode) : ℚ :=
  match ev with
  | .b32Stepwise => val (rn32 (exactQuotient v c)) - 2 ^ (c.toNat + 1)
  | .exactRn => law v c

theorem two_zpow_range_sub (c : RangeCode) (k : Int) : (2 : ℚ) ^ ((c.toNat : Int) - k) = 2 ^ c.toNat / 2 ^ k := by
  rw [zpow_sub₀ two_ne_zero, zpow_natCast]

theorem two_zpow_range_add (c : RangeCode) (k : Int) : (2 : ℚ) ^ ((c.toNat : Int) + k) = 2 ^ c.toNat * 2 ^ k := by
  rw [zpow_add₀ two_ne_zero, zpow_natCast]

theorem exactQuotient_eq_law_add (v : Int) (c : RangeCode) : exactQuotient v c = law v c + 2 ^ (c.toNat + 1) := by
  rw [exactQuotient, law_eq]
  ring

theorem exactQuotient_eq_rangeG (v : Int) (c : RangeCode) :
    exactQuotient v c = ((v : ℚ) + 32768) * (2 * rangeG c) / 65535 := by
  rw [exactQuotient, rangeG_cast]
  ring

theorem scaleB_eq_rn32_law (v : Int) (c : RangeCode) : scaleB v c = rn32 (law v c) := by
  rw [scaleB, law_eq, rangeG_cast]
  norm_num

/-- `R(c)` is 32768 counts (R110, R114). -/
theorem range_eq_counts (c : RangeCode) : (2 : ℚ) ^ (c.toNat + 1) = 32768 * (2 : ℚ) ^ ((c.toNat : Int) - 14) := by
  rw [two_zpow_range_sub, pow_succ]
  norm_num
  ring

/-- The ratio is `v` counts, one count of the 16-bit word being `2^(c-14)` (R114). -/
theorem ratioG_eq_counts (v : Int) (c : RangeCode) : ratioG v c = v * (2 : ℚ) ^ ((c.toNat : Int) - 14) := by
  rw [ratioG, rangeG_cast, range_eq_counts]
  norm_num
  ring

section Sample

variable {v : Int} (hv1 : -32768 ≤ v) (hv2 : v ≤ 32767) (c : RangeCode)
include hv1 hv2

theorem scaleA_eq_rn32_lastRounded : scaleA v c = rn32 (lastRounded .b32Stepwise v c) := by
  rw [scaleA_eq_rn32 hv1 hv2 c, ← exactQuotient_eq_rangeG, rangeG_cast, neg_add_eq_sub, lastRounded]

theorem scale_eq_rn32_lastRounded (ev : ScaleEval) : scale ev v c = rn32 (lastRounded ev v c) := by
  cases ev with
  | b32Stepwise => exact scaleA_eq_rn32_lastRounded hv1 hv2 c
  | exactRn => exact scaleB_eq_rn32_law v c

/-! ### The quotient of EVAL-A and its rounding -/

theorem exactQuotient_bounds : 0 ≤ exactQuotient v c ∧ exactQuotient v c ≤ (2 : ℚ) ^ ((c.toNat : Int) + 2) := by
  have hlaw := abs_le.1 (abs_law_le hv1 hv2 c)
  rw [exactQuotient_eq_law_add, two_zpow_range_add]
  rw [pow_succ] at hlaw ⊢
  constructor <;> norm_num <;> linarith

omit hv2 in
/-- The quotient is 0 at the low end of the domain and otherwise within binary32's normal range. -/
theorem exactQuotient_normal : exactQuotient v c = 0 ∨ (2 : ℚ) ^ (-126 : Int) ≤ |exactQuotient v c| := by
  rcases hv1.eq_or_lt with rfl | hlt
  · left
    rw [exactQuotient]
    norm_num
  · right
    have hv : (1 : ℚ) ≤ v + 32768 := by exact_mod_cast (by omega : (1 : Int) ≤ v + 32768)
    have hp : (1 : ℚ) ≤ 2 ^ (c.toNat + 2) := one_le_pow₀ one_le_two
    have hge : (1 : ℚ) / 65535 ≤ exactQuotient v c := by
      rw [exactQuotient]
      gcongr
      exact one_le_mul_of_one_le_of_one_le hv hp
    calc (2 : ℚ) ^ (-126 : Int) ≤ 1 / 65535 := by norm_num
      _ ≤ _ := hge.trans (le_abs_self _)

/-- Rounding the quotient does not pass a multiple of `2^(c-22)`, the unit at its largest value (R115). -/
theorem val_rn32_exactQuotient_between {i j k : Int} (hk : (c.toNat : Int) - 22 ≤ k)
    (hi : i * (2 : ℚ) ^ k ≤ exactQuotient v c) (hj : exactQuotient v c ≤ j * (2 : ℚ) ^ k) :
    i * (2 : ℚ) ^ k ≤ val (rn32 (exactQuotient v c)) ∧ val (rn32 (exactQuotient v c)) ≤ j * (2 : ℚ) ^ k := by
  obtain ⟨hq1, hq2⟩ := exactQuotient_bounds hv1 hv2 c
  have hc := rangeCode_lt c
  rw [← abs_of_nonneg hq1] at hq2
  have hn := exactQuotient_normal hv1 c
  exact ⟨multiple_le_val_rn32 hn hq2 (by omega) (by omega) hi, val_rn32_le_multiple hn hq2 (by omega) (by omega) hj⟩

/-! ### The bounds of what is rounded last -/

/-- The law is from `v` to `v + 1` counts (R114). -/
theorem law_between_counts :
    v * (2 : ℚ) ^ ((c.toNat : Int) - 14) ≤ law v c ∧ law v c ≤ (v + 1) * (2 : ℚ) ^ ((c.toNat : Int) - 14) := by
  obtain ⟨-, -, -, hlow, hhigh⟩ := lawExceedsRatioByAtMostOneCount v c hv1 hv2
  rw [ratioG_eq_counts] at hlow hhigh
  rw [range_eq_counts] at hhigh
  constructor <;> linarith

/-- What is rounded last is from `v` to `v + 1` counts, for both evaluations (R118 (d)). -/
theorem lastRounded_between_counts (ev : ScaleEval) :
    v * (2 : ℚ) ^ ((c.toNat : Int) - 14) ≤ lastRounded ev v c ∧
    lastRounded ev v c ≤ (v + 1) * (2 : ℚ) ^ ((c.toNat : Int) - 14) := by
  obtain ⟨h1, h2⟩ := law_between_counts hv1 hv2 c
  cases ev with
  | b32Stepwise =>
    have hR := range_eq_counts c
    have hq := exactQuotient_eq_law_add v c
    obtain ⟨hq1, hq2⟩ := val_rn32_exactQuotient_between hv1 hv2 c (i := v + 32768) (j := v + 32769) (k := c.toNat - 14)
      (by omega) (by push_cast; linarith) (by push_cast; linarith)
    push_cast at hq1 hq2
    simp only [lastRounded]
    constructor <;> linarith
  | exactRn => exact ⟨h1, h2⟩

theorem abs_lastRounded_le (ev : ScaleEval) : |lastRounded ev v c| ≤ (2 : ℚ) ^ ((c.toNat : Int) + 1) := by
  obtain ⟨h1, h2⟩ := lastRounded_between_counts hv1 hv2 c ev
  have hcount : (0 : ℚ) < (2 : ℚ) ^ ((c.toNat : Int) - 14) := by positivity
  have hR := range_eq_counts c
  have hv1' : (-32768 : ℚ) ≤ v := by exact_mod_cast hv1
  have hv2' : (v : ℚ) + 1 ≤ 32768 := by exact_mod_cast (by omega : v + 1 ≤ 32768)
  rw [← Nat.cast_succ, zpow_natCast, hR]
  exact abs_le.2 ⟨by nlinarith, h2.trans (mul_le_mul_of_nonneg_right hv2' hcount.le)⟩

/-- What is rounded last keeps half a count away from 0 (R121). -/
theorem le_abs_lastRounded (ev : ScaleEval) : (2 : ℚ) ^ ((c.toNat : Int) - 15) ≤ |lastRounded ev v c| := by
  have hR := rangeG_eq_units c
  rw [rangeG_cast] at hR
  cases ev with
  | b32Stepwise =>
    simp only [lastRounded]
    rcases val_rn32_quotient_cases hv1 hv2 c (exactQuotient_eq_rangeG v c) with ⟨-, hq⟩ | ⟨hq, -⟩
    · rw [abs_sub_comm]
      exact le_trans (by linarith) (le_abs_self _)
    · exact le_trans (by linarith) (le_abs_self _)
  | exactRn =>
    have hlaw := le_abs_law v c
    have hunit : (0 : ℚ) < (2 : ℚ) ^ ((c.toNat : Int) - 15) := by positivity
    rw [hR] at hlaw
    simp only [lastRounded]
    linarith

theorem lastRounded_normal (ev : ScaleEval) : (2 : ℚ) ^ (-126 : Int) ≤ |lastRounded ev v c| :=
  (zpow_le_zpow_right₀ one_le_two (by omega)).trans (le_abs_lastRounded hv1 hv2 c ev)

/-- Rounding last does not pass a multiple of `2^(c-23)`, the unit at the largest result (R121). -/
theorem val_scale_between (ev : ScaleEval) {i j k : Int} (hk : (c.toNat : Int) - 23 ≤ k)
    (hi : i * (2 : ℚ) ^ k ≤ lastRounded ev v c) (hj : lastRounded ev v c ≤ j * (2 : ℚ) ^ k) :
    i * (2 : ℚ) ^ k ≤ val (scale ev v c) ∧ val (scale ev v c) ≤ j * (2 : ℚ) ^ k := by
  have hc := rangeCode_lt c
  have hn := lastRounded_normal hv1 hv2 c ev
  have hm := abs_lastRounded_le hv1 hv2 c ev
  rw [scale_eq_rn32_lastRounded hv1 hv2 c ev]
  exact ⟨multiple_le_val_rn32 (.inr hn) hm (by omega) (by omega) hi, val_rn32_le_multiple (.inr hn) hm (by omega) (by omega) hj⟩

/-- The last rounding's error, half a unit at the largest result at most. -/
theorem abs_val_scale_sub_lastRounded_le (ev : ScaleEval) :
    |val (scale ev v c) - lastRounded ev v c| ≤ (2 : ℚ) ^ ((c.toNat : Int) - 24) := by
  have hc := rangeCode_lt c
  have h := abs_val_rn32_sub_le (.inr (lastRounded_normal hv1 hv2 c ev)) (abs_lastRounded_le hv1 hv2 c ev) (by omega)
  rwa [← scale_eq_rn32_lastRounded hv1 hv2 c ev, show (c.toNat : Int) + 1 - 25 = c.toNat - 24 by ring] at h

/-- Every result is from `v` to `v + 1` counts (R118 (d)). -/
theorem val_scale_between_counts (ev : ScaleEval) :
    v * (2 : ℚ) ^ ((c.toNat : Int) - 14) ≤ val (scale ev v c) ∧
    val (scale ev v c) ≤ (v + 1) * (2 : ℚ) ^ ((c.toNat : Int) - 14) := by
  obtain ⟨h1, h2⟩ := lastRounded_between_counts hv1 hv2 c ev
  have h := val_scale_between hv1 hv2 c ev (i := v) (j := v + 1) (k := c.toNat - 14) (by omega) h1 (by push_cast; exact h2)
  push_cast at h
  exact h

theorem b32Normal_scale (ev : ScaleEval) : b32Normal (scale ev v c) = true := by
  have hc := rangeCode_lt c
  obtain ⟨h1, h2⟩ := b32Exp_scale_bounds hv1 hv2 c ev
  simp only [b32Normal, Bool.and_eq_true, decide_eq_true_eq]
  omega

end Sample

/-- Settles O36: the other operations of EVAL-A are exact. -/
theorem stepwiseEvaluationRoundsTwice : Obligations.StepwiseEvaluationRoundsTwice :=
  fun _ c hv1 hv2 => scaleA_eq_rn32_lastRounded hv1 hv2 c

/-! ### End points -/

theorem exactQuotient_min (c : RangeCode) : exactQuotient (-32768) c = 0 := by
  rw [exactQuotient]
  norm_num

theorem exactQuotient_max (c : RangeCode) : exactQuotient 32767 c = (1 : Int) * (2 : ℚ) ^ ((c.toNat : Int) + 2) := by
  rw [exactQuotient, two_zpow_range_add]
  norm_num
  ring

/-- At the end points nothing is left to round: what is rounded last is `-R(c)` or `R(c)` (R115, R116). -/
theorem lastRounded_ends (ev : ScaleEval) (c : RangeCode) :
    lastRounded ev (-32768) c = -2 ^ (c.toNat + 1) ∧ lastRounded ev 32767 c = 2 ^ (c.toNat + 1) := by
  have hc := rangeCode_lt c
  cases ev with
  | b32Stepwise =>
    simp only [lastRounded]
    rw [exactQuotient_min, rn32_zero, val_zero, exactQuotient_max, val_rn32_multiple (by norm_num) (by omega) (by omega),
      two_zpow_range_add, pow_succ]
    norm_num
    ring
  | exactRn => exact ⟨law_min c, law_max c⟩

/-- Settles O39: `±R(c)` is a binary32 number. -/
theorem endPointsAreExact : Obligations.EndPointsAreExact := by
  intro ev c
  have hc := rangeCode_lt c
  obtain ⟨hmin, hmax⟩ := lastRounded_ends ev c
  have hlow := val_rn32_multiple (j := -1) (k := (c.toNat : Int) + 1) (by norm_num) (by omega) (by omega)
  have hhigh := val_rn32_multiple (j := 1) (k := (c.toNat : Int) + 1) (by norm_num) (by omega) (by omega)
  rw [← Nat.cast_succ, zpow_natCast] at hlow hhigh
  rw [Int.cast_neg, Int.cast_one, neg_one_mul] at hlow
  rw [Int.cast_one, one_mul] at hhigh
  rw [scale_eq_rn32_lastRounded (by norm_num) (by norm_num), hmin, scale_eq_rn32_lastRounded (by norm_num) (by norm_num), hmax]
  exact ⟨hlow, hhigh⟩

/-- Settles O43: counts are multiples of every unit met, so no rounding leaves the law's own count. -/
theorem resultsWithinOneCountOfTheRatio : Obligations.ResultsWithinOneCountOfTheRatio := by
  intro ev c
  have hR := range_eq_counts c
  obtain ⟨hmin, hmax⟩ := endPointsAreExact ev c
  refine ⟨fun v hv1 hv2 => ?_, ?_, ?_⟩
  · obtain ⟨h1, h2⟩ := val_scale_between_counts hv1 hv2 c ev
    rw [ratioG_eq_counts]
    constructor <;> linarith
  · rw [hmin, ratioG_eq_counts, hR]
    push_cast
    ring
  · rw [hmax, ratioG_eq_counts, hR]
    push_cast
    ring

/-- Settles O44: a result lies between the counts `v` and `v + 1`, and no normal number is 0. -/
theorem resultSignFollowsTheSample : Obligations.ResultSignFollowsTheSample := by
  intro ev v c hv1 hv2
  obtain ⟨h1, h2⟩ := val_scale_between_counts hv1 hv2 c ev
  have hne := val_ne_zero (b32Normal_scale hv1 hv2 c ev)
  have hcount : (0 : ℚ) < (2 : ℚ) ^ ((c.toNat : Int) - 14) := by positivity
  refine ⟨⟨fun hpos => ?_, fun hv => ?_⟩, hne⟩
  · have : (0 : ℚ) < v + 1 := (mul_pos_iff_of_pos_right hcount).1 (hpos.trans_le h2)
    have : 0 < v + 1 := by exact_mod_cast this
    omega
  · have : (0 : ℚ) ≤ v := by exact_mod_cast hv
    exact lt_of_le_of_ne ((mul_nonneg this hcount.le).trans h1) hne.symm

/-- Settles O47: exponents as R121 gives them, and magnitudes by the least exponent and by `R(c)`. -/
theorem resultsAreNormalNumbers : Obligations.ResultsAreNormalNumbers := by
  intro ev v c hv1 hv2
  have hc := rangeCode_lt c
  have hn := b32Normal_scale hv1 hv2 c ev
  obtain ⟨hexp1, hexp2⟩ := b32Exp_scale_bounds hv1 hv2 c ev
  refine ⟨hn, hexp1, hexp2, ?_, ?_⟩
  · exact (zpow_le_zpow_right₀ one_le_two (by omega)).trans (zpow_b32Exp_le_abs_val hn)
  · have hmax := abs_lastRounded_le hv1 hv2 c ev
    obtain ⟨hmax1, hmax2⟩ := abs_le.1 hmax
    have h := val_scale_between hv1 hv2 c ev (i := -1) (j := 1) (k := c.toNat + 1) (by omega)
      (by push_cast; linarith) (by push_cast; linarith)
    push_cast at h
    rw [neg_mul, one_mul] at h
    calc _ ≤ (2 : ℚ) ^ ((c.toNat : Int) + 1) := abs_le.2 h
      _ ≤ (2 : ℚ) ^ (4 : Int) := zpow_le_zpow_right₀ one_le_two (by omega)
      _ = 16 := by norm_num

/-! ### The error of EVAL-A -/

/-- `R(c)` in the unit `2^(c-23)` of the largest results (R110, R121). -/
theorem range_eq_units (c : RangeCode) : (2 : ℚ) ^ (c.toNat + 1) = 2 ^ 24 * (2 : ℚ) ^ ((c.toNat : Int) - 23) := by
  rw [pow_succ, ← zpow_natCast, ← pow23_mul_ulp_eq]
  ring

theorem lastRounded_stepwise_sub_law (v : Int) (c : RangeCode) :
    lastRounded .b32Stepwise v c - law v c = val (rn32 (exactQuotient v c)) - exactQuotient v c := by
  rw [exactQuotient_eq_law_add, lastRounded, exactQuotient_eq_law_add]
  ring

section UpperPart

variable {v : Int} (hv1 : -16384 ≤ v) (hv2 : v ≤ 32767) (c : RangeCode)
include hv1 hv2

/-- From `v = -16384` on the quotient is `2^c` at least (R115). -/
theorem half_range_le_exactQuotient : (2 : ℚ) ^ (c.toNat : Int) ≤ exactQuotient v c := by
  have hv : (16384 : ℚ) ≤ v + 32768 := by exact_mod_cast (by omega : (16384 : Int) ≤ v + 32768)
  have hp : (0 : ℚ) < 2 ^ c.toNat := by positivity
  rw [exactQuotient, zpow_natCast, le_div_iff₀ (by norm_num), pow_add]
  nlinarith

/-- From `v = -16384` on the rounded quotient is a multiple of the unit `2^(c-23)`, and so is its difference to `R(c)`. -/
theorem lastRounded_stepwise_eq_multiple :
    ∃ j : Int, lastRounded .b32Stepwise v c = j * (2 : ℚ) ^ ((c.toNat : Int) - 23) := by
  have hc := rangeCode_lt c
  obtain ⟨hq1, hq2⟩ := exactQuotient_bounds (by omega) hv2 c
  have hhalf := half_range_le_exactQuotient hv1 hv2 c
  rw [← abs_of_nonneg hq1] at hq2 hhalf
  obtain ⟨i, hi⟩ := val_rn32_eq_multiple hhalf hq2 (by omega) (by omega)
  refine ⟨i - 2 ^ 24, ?_⟩
  rw [lastRounded, hi, range_eq_units]
  push_cast
  ring

/-- From `v = -16384` on the second rounding has nothing to do: the sum is that multiple of the unit, by `2^24` at most (R115). -/
theorem val_scaleA_eq_lastRounded : val (scaleA v c) = lastRounded .b32Stepwise v c := by
  have hc := rangeCode_lt c
  have hdom : -32768 ≤ v := by omega
  have hu : (0 : ℚ) < (2 : ℚ) ^ ((c.toNat : Int) - 23) := by positivity
  obtain ⟨j, hj⟩ := lastRounded_stepwise_eq_multiple hv1 hv2 c
  have hmax := abs_lastRounded_le hdom hv2 c .b32Stepwise
  rw [hj, abs_mul, abs_of_pos hu, ← Nat.cast_succ, zpow_natCast, range_eq_units, mul_le_mul_iff_left₀ hu] at hmax
  rw [scaleA_eq_rn32_lastRounded hdom hv2, hj]
  exact val_rn32_multiple (by exact_mod_cast hmax) (by omega) (by omega)

end UpperPart

section LowerPart

variable {v : Int} (hv1 : -32768 ≤ v) (hv2 : v < -16384) (c : RangeCode)
include hv1 hv2

/-- Below `v = -16384` the quotient is `2^c` at most, and so its rounding error a quarter of the unit `2^(c-23)` at most (R115). -/
theorem exactQuotient_lower :
    exactQuotient v c ≤ (2 : ℚ) ^ (c.toNat : Int) ∧
    |val (rn32 (exactQuotient v c)) - exactQuotient v c| ≤ (2 : ℚ) ^ ((c.toNat : Int) - 25) := by
  have hc := rangeCode_lt c
  obtain ⟨hq1, -⟩ := exactQuotient_bounds hv1 (by omega) c
  have hhalf : exactQuotient v c ≤ (2 : ℚ) ^ (c.toNat : Int) := by
    have hv : (v : ℚ) + 32768 ≤ 16383 := by exact_mod_cast (by omega : v + 32768 ≤ 16383)
    have hp : (0 : ℚ) < 2 ^ c.toNat := by positivity
    rw [exactQuotient, zpow_natCast, div_le_iff₀ (by norm_num), pow_add]
    nlinarith
  exact ⟨hhalf, abs_val_rn32_sub_le (exactQuotient_normal hv1 c) (by rwa [abs_of_nonneg hq1]) (by omega)⟩

/-- Below `v = -16384` the sum of EVAL-A is `-2^c` or less. -/
theorem le_abs_lastRounded_lower : (2 : ℚ) ^ (c.toNat : Int) ≤ |lastRounded .b32Stepwise v c| := by
  obtain ⟨hhalf, -⟩ := exactQuotient_lower hv1 hv2 c
  obtain ⟨-, hq⟩ := val_rn32_exactQuotient_between hv1 (by omega) c (i := 0) (j := 1) (k := c.toNat) (by omega)
    (by rw [Int.cast_zero, zero_mul]; exact (exactQuotient_bounds hv1 (by omega) c).1) (by rwa [Int.cast_one, one_mul])
  rw [Int.cast_one, one_mul, zpow_natCast] at hq
  rw [lastRounded, abs_sub_comm, zpow_natCast, pow_succ]
  exact le_trans (by linarith) (le_abs_self _)

end LowerPart

section Sample

variable {v : Int} (hv1 : -32768 ≤ v) (hv2 : v ≤ 32767) (c : RangeCode)
include hv1 hv2

/-- Every result of EVAL-A is a multiple of the unit `2^(c-23)` of the largest results. -/
theorem val_scaleA_eq_multiple : ∃ j : Int, val (scaleA v c) = j * (2 : ℚ) ^ ((c.toNat : Int) - 23) := by
  have hc := rangeCode_lt c
  rcases lt_or_ge v (-16384) with hlow | hhigh
  · rw [scaleA_eq_rn32_lastRounded hv1 hv2]
    exact val_rn32_eq_multiple (le_abs_lastRounded_lower hv1 hlow c) (abs_lastRounded_le hv1 hv2 c _) (by omega) (by omega)
  · rw [val_scaleA_eq_lastRounded hhigh hv2]
    exact lastRounded_stepwise_eq_multiple hhigh hv2 c

/-- The errors of the two roundings of EVAL-A together: the second is 0 where the first is largest. -/
theorem abs_val_scaleA_sub_law_le : |val (scaleA v c) - law v c| ≤ (2 : ℚ) ^ ((c.toNat : Int) - 23) := by
  have hc := rangeCode_lt c
  rcases lt_or_ge v (-16384) with hlow | hhigh
  · obtain ⟨-, hfirst⟩ := exactQuotient_lower hv1 hlow c
    rw [← lastRounded_stepwise_sub_law] at hfirst
    have hsecond : |val (scaleA v c) - lastRounded .b32Stepwise v c| ≤ (2 : ℚ) ^ ((c.toNat : Int) - 24) :=
      abs_val_scale_sub_lastRounded_le hv1 hv2 c .b32Stepwise
    have hp : (0 : ℚ) < 2 ^ c.toNat := by positivity
    rw [two_zpow_range_sub] at hfirst hsecond ⊢
    refine (abs_sub_le _ (lastRounded .b32Stepwise v c) _).trans ((add_le_add hsecond hfirst).trans ?_)
    norm_num
    linarith
  · obtain ⟨hq1, hq2⟩ := exactQuotient_bounds hv1 hv2 c
    rw [val_scaleA_eq_lastRounded hhigh hv2 c, lastRounded_stepwise_sub_law,
      show (c.toNat : Int) - 23 = c.toNat + 2 - 25 by ring]
    exact abs_val_rn32_sub_le (exactQuotient_normal hv1 c) (by rwa [abs_of_nonneg hq1]) (by omega)

/-- Where the law is an integer times a power of two, `v` is an end point (R112 (g)). -/
theorem end_point_of_law_eq_multiple {j k : Int} (h : law v c = j * (2 : ℚ) ^ k) : v = -32768 ∨ v = 32767 := by
  have hexp : k + (-k).toNat = k.toNat := by omega
  refine end_point_of_law_dyadic hv1 hv2 (c := c) (m := j * 2 ^ k.toNat) (k := (-k).toNat) ?_
  push_cast
  rw [h, mul_assoc, ← zpow_natCast _ (-k).toNat, ← zpow_add₀ two_ne_zero, hexp, zpow_natCast]

end Sample

/-- Settles O37: the sum is a binary32 number. -/
theorem secondRoundingIsExactAboveHalfScale : Obligations.SecondRoundingIsExactAboveHalfScale :=
  fun _ c hv1 hv2 => val_scaleA_eq_lastRounded hv1 hv2 c

/-- Settles O38: every result is an integer times a power of two, and the law is so at the end points alone. -/
theorem resultsEqualTheLawOnlyAtEndPoints : Obligations.ResultsEqualTheLawOnlyAtEndPoints := by
  intro ev v c hv1 hv2
  obtain ⟨hmin, hmax⟩ := endPointsAreExact ev c
  constructor
  · intro h
    rw [val_eq_b32Sig_mul (b32Normal_scale hv1 hv2 c ev)] at h
    exact end_point_of_law_eq_multiple hv1 hv2 c h.symm
  · rintro (rfl | rfl)
    · rw [hmin, law_min]
    · rw [hmax, law_max]

/-- Settles O40: an error of a whole unit would make the law an integer number of units, so an end point, where there is no
error. -/
theorem stepwiseEvaluationError : Obligations.StepwiseEvaluationError := by
  intro v c hv1 hv2
  have hu : (0 : ℚ) < (2 : ℚ) ^ ((c.toNat : Int) - 23) := by positivity
  refine (abs_val_scaleA_sub_law_le hv1 hv2 c).lt_of_ne fun htie => ?_
  obtain ⟨j, hj⟩ := val_scaleA_eq_multiple hv1 hv2 c
  have hend : v = -32768 ∨ v = 32767 := by
    rcases eq_or_eq_neg_of_abs_eq htie with h | h
    · exact end_point_of_law_eq_multiple hv1 hv2 c (j := j - 1) (k := c.toNat - 23) (by push_cast; linarith)
    · exact end_point_of_law_eq_multiple hv1 hv2 c (j := j + 1) (k := c.toNat - 23) (by push_cast; linarith)
  have hexact : val (scaleA v c) = law v c := (resultsEqualTheLawOnlyAtEndPoints .b32Stepwise v c hv1 hv2).2 hend
  rw [hexact, sub_self, abs_zero] at htie
  exact hu.ne htie

/-- Settles O41: one rounding of the law, whose relative error is half a unit. -/
theorem exactEvaluationError : Obligations.ExactEvaluationError := by
  intro v c hv1 hv2
  have hc := rangeCode_lt c
  have hlow : (2 : ℚ) ^ ((c.toNat : Int) - 15) ≤ |law v c| := le_abs_lastRounded hv1 hv2 c .exactRn
  have hhigh : |law v c| ≤ (2 : ℚ) ^ ((c.toNat : Int) + 1) := abs_lastRounded_le hv1 hv2 c .exactRn
  obtain ⟨e, hexp1, hexp2, he1, he2⟩ := exists_exponent_of_bounds hlow hhigh
  rw [scaleB_eq_rn32_law]
  calc |val (rn32 (law v c)) - law v c| ≤ (2 : ℚ) ^ (e - 24) := (rn32_normal_half_ulp he1 he2 (by omega) (by omega)).2
    _ = (2 : ℚ) ^ (-24 : Int) * (2 : ℚ) ^ e := by rw [← zpow_add₀ two_ne_zero, neg_add_eq_sub]
    _ ≤ _ := mul_le_mul_of_nonneg_left he1 (by positivity)

/-- Settles O42: EVAL-A is a multiple of the unit within one unit of the law, and EVAL-B rounds the law without passing the
multiples next to it. -/
theorem evaluationsDifferByAtMost : Obligations.EvaluationsDifferByAtMost := by
  intro v c hv1 hv2
  obtain ⟨herr1, herr2⟩ := abs_le.1 (abs_val_scaleA_sub_law_le hv1 hv2 c)
  obtain ⟨j, hj⟩ := val_scaleA_eq_multiple hv1 hv2 c
  rw [hj] at herr1 herr2
  have hB : ((j - 1 : Int) : ℚ) * (2 : ℚ) ^ ((c.toNat : Int) - 23) ≤ val (scaleB v c) ∧
      val (scaleB v c) ≤ ((j + 1 : Int) : ℚ) * (2 : ℚ) ^ ((c.toNat : Int) - 23) :=
    val_scale_between hv1 hv2 c .exactRn (by omega) (by push_cast; simp only [lastRounded]; linarith)
      (by push_cast; simp only [lastRounded]; linarith)
  push_cast at hB
  obtain ⟨hB1, hB2⟩ := hB
  rw [hj]
  exact abs_le.2 ⟨by linarith, by linarith⟩

/-- Both evaluations are within a unit `2^(c-23)` of the law. -/
theorem abs_val_scale_sub_law_le {v : Int} (hv1 : -32768 ≤ v) (hv2 : v ≤ 32767) (c : RangeCode) (ev : ScaleEval) :
    |val (scale ev v c) - law v c| ≤ (2 : ℚ) ^ ((c.toNat : Int) - 23) := by
  cases ev with
  | b32Stepwise => exact abs_val_scaleA_sub_law_le hv1 hv2 c
  | exactRn =>
    exact (abs_val_scale_sub_lastRounded_le hv1 hv2 c .exactRn).trans (zpow_le_zpow_right₀ one_le_two (by omega))

/-- Settles O45: a step of the law, about `2^(c-14)`, is more than two errors. -/
theorem resultsStrictlyIncrease : Obligations.ResultsStrictlyIncrease := by
  intro ev v w c hv hvw hw
  obtain ⟨-, herrv⟩ := abs_le.1 (abs_val_scale_sub_law_le hv (by omega) c ev)
  obtain ⟨herrw, -⟩ := abs_le.1 (abs_val_scale_sub_law_le (by omega : -32768 ≤ w) hw c ev)
  have hu : (0 : ℚ) < (2 : ℚ) ^ ((c.toNat : Int) - 23) := by positivity
  have hstep : 2 * (2 : ℚ) ^ ((c.toNat : Int) - 23) < law w c - law v c := by
    have hdiff : (1 : ℚ) ≤ w - v := by exact_mod_cast (by omega : 1 ≤ w - v)
    rw [law_sub, range_eq_units]
    calc 2 * (2 : ℚ) ^ ((c.toNat : Int) - 23) < 2 * (2 ^ 24 * (2 : ℚ) ^ ((c.toNat : Int) - 23)) / 65535 * 1 := by linarith
      _ ≤ _ := by gcongr
  linarith

/-! ### The other ranges, and the other sign -/

theorem exactQuotient_eq_zero_range_mul (v : Int) (c : RangeCode) : exactQuotient v c = exactQuotient v 0 * 2 ^ c.toNat := by
  rw [exactQuotient, exactQuotient, rangeCode_zero_toNat]
  ring

/-- Multiplying by `2^k` adds `k` to the exponent field, from bounds on the magnitude (R119). -/
theorem rn32_mul_pow2_of_bounds {x : ℚ} {a b : Int} (ha : (2 : ℚ) ^ a ≤ |x|) (hb : |x| ≤ (2 : ℚ) ^ b) (ha126 : -126 ≤ a)
    (k : Nat) (hbk : b + k ≤ 126) :
    rn32 (x * 2 ^ k) = rn32 x + BitVec.ofNat 32 (k * 2 ^ 23) ∧ val (rn32 (x * 2 ^ k)) = val (rn32 x) * 2 ^ k := by
  obtain ⟨hr1, hr2⟩ := roundedSig_exp_of_bounds ha hb ha126
  exact rn32_mul_pow2 (ne_zero_of_zpow_le_abs ha) k hr1 (by omega)

section Sample

variable {v : Int} (hv1 : -32768 ≤ v) (hv2 : v ≤ 32767) (c : RangeCode)
include hv1 hv2

/-- The first rounding of EVAL-A commutes with the change of range (R119). -/
theorem val_rn32_exactQuotient_range :
    val (rn32 (exactQuotient v c)) = val (rn32 (exactQuotient v 0)) * 2 ^ c.toNat := by
  have hc := rangeCode_lt c
  rw [exactQuotient_eq_zero_range_mul v c]
  rcases exactQuotient_normal hv1 0 with hzero | hnormal
  · rw [hzero, zero_mul, rn32_zero, val_zero, zero_mul]
  · obtain ⟨hq1, hq2⟩ := exactQuotient_bounds hv1 hv2 0
    rw [← abs_of_nonneg hq1] at hq2
    exact (rn32_mul_pow2_of_bounds hnormal hq2 le_rfl c.toNat (by rw [rangeCode_zero_toNat]; omega)).2

theorem lastRounded_range (ev : ScaleEval) : lastRounded ev v c = lastRounded ev v 0 * 2 ^ c.toNat := by
  cases ev with
  | b32Stepwise =>
    simp only [lastRounded]
    rw [val_rn32_exactQuotient_range hv1 hv2 c, rangeCode_zero_toNat]
    ring
  | exactRn => exact (law_eq_mul_law_zero v c).trans (mul_comm _ _)

end Sample

/-- Settles O46: every rounding commutes with the scaling by `2^c`. -/
theorem rangeChangesOnlyTheExponent : Obligations.RangeChangesOnlyTheExponent := by
  intro ev v c hv1 hv2
  have hc := rangeCode_lt c
  rw [scale_eq_rn32_lastRounded hv1 hv2 c, lastRounded_range hv1 hv2 c, scale_eq_rn32_lastRounded hv1 hv2 0]
  obtain ⟨hpattern, hval⟩ := rn32_mul_pow2_of_bounds (lastRounded_normal hv1 hv2 0 ev) (abs_lastRounded_le hv1 hv2 0 ev)
    le_rfl c.toNat (by rw [rangeCode_zero_toNat]; omega)
  exact ⟨hpattern, hval.trans (mul_comm _ _)⟩

/-- Settles O48: the law is odd about -1/2, and `RN32` is odd. -/
theorem exactEvaluationIsOdd : Obligations.ExactEvaluationIsOdd := by
  intro v c hv1 hv2
  have hc := rangeCode_lt c
  have hnormal := lastRounded_normal hv1 hv2 c .exactRn
  obtain ⟨hr1, hr2⟩ := roundedSig_exp_of_bounds hnormal (abs_lastRounded_le hv1 hv2 c .exactRn) le_rfl
  rw [scaleB_eq_rn32_law, scaleB_eq_rn32_law, law_reflect]
  exact rn32_neg (ne_zero_of_zpow_le_abs hnormal) hr1 (hr2.trans (by omega))

/-- Settles O49: fixed inputs, evaluated. -/
theorem documentScalingExamples : Obligations.DocumentScalingExamples := by
  unfold Obligations.DocumentScalingExamples
  decide +kernel

end Sys2Proof.Machine

/-! PROOFS. The commands: what NOP, SETFS and DECODE answer (R140 to R142), what a beat's response depends on (R147, R148), runs
of the presented events (R146), and reads among driver operations that present nothing (R144, R145). -/

namespace Sys2Proof.Machine

open Sys2Proof.Safety

/-! ### The three commands -/

/-- Settles O18: NOP writes nothing but its response. -/
theorem nopReportsFsr : Obligations.NopReportsFsr := fun _ => rfl

/-- Settles O19: the failure bit decides between the write of `FSR` and `raise`. -/
theorem setfsCommitsOnSuccessOnly : Obligations.SetfsCommitsOnSuccessOnly := fun _ _ => ⟨rfl, rfl⟩

/-- A DECODE that succeeds adds one `OK` response with the three lanes at `FSR`, and nothing else changes (R142). -/
theorem exec_decode_ok (raw : RawSample) (s : State) :
    exec (.decode false raw) s = .next { s with
      responses := s.responses ++
        [{ status := .ok, fsQ := s.fsr, data := some (decodeLanes s.params.scaleEval s.fsr raw) }] } := rfl

/-- A DECODE that fails is `raise` (R142, R201). -/
theorem exec_decode_fail (raw : RawSample) (s : State) : exec (.decode true raw) s = raiseError .busError s := rfl

/-- A lane from its two bytes: the word by arithmetic (R90), its product (R113), and the evaluation that `SCALE_EVAL` names
(R115, R116). -/
theorem lane_fields {p : Params} {c : RangeCode} {lo hi : Byte} {l : LaneData} (hl : l = laneOf p.scaleEval c (unpack lo hi)) :
    l.w16.toNat = hi.toNat * 256 + lo.toNat ∧ l.fx.toInt = l.w16.toInt * 2 ^ (c.toNat + 1) ∧
    (p.scaleEval = .b32Stepwise → l.f32 = scaleA l.w16.toInt c) ∧ (p.scaleEval = .exactRn → l.f32 = scaleB l.w16.toInt c) := by
  subst hl
  obtain ⟨hfx, hf32, -⟩ := laneLawful_laneOf p c (unpack lo hi)
  exact ⟨unpack_toNat lo hi, hfx, fun hev => by rw [hf32, hev, scale], fun hev => by rw [hf32, hev, scale]⟩

/-- Settles O20: each of the three lanes is the lane of its axis' two bytes. -/
theorem decodeDeliversThreeScaledAxes : Obligations.DecodeDeliversThreeScaledAxes := by
  intro raw s
  refine ⟨⟨_, exec_decode_ok raw s, fun l lo hi hmem => ?_⟩, (exec_decode_fail raw s).trans (raiseError_eq ..)⟩
  have hl : l = laneOf s.params.scaleEval s.fsr (unpack lo hi) := by
    simp only [List.mem_cons, List.not_mem_nil, or_false, Prod.mk.injEq] at hmem
    obtain ⟨rfl, rfl, rfl⟩ | ⟨rfl, rfl, rfl⟩ | ⟨rfl, rfl, rfl⟩ := hmem <;> rfl
  exact lane_fields hl

/-! ### One step -/

/-- Settles O9: the decoder's answer is what the step runs. -/
theorem stepRunsTheDecodedCommand : Obligations.StepRunsTheDecodedCommand :=
  fun _ _ _ _ h hd => step_of_decode_ok h hd

/-- Settles O11: the oldest event, where there is one, is taken. -/
theorem stepStopsOnlyWhenNothingIsPresented : Obligations.StepStopsOnlyWhenNothingIsPresented := by
  refine fun s => ⟨step_of_no_event, fun hne => ?_⟩
  obtain ⟨e, rest, hp⟩ := List.exists_cons_of_ne_nil hne
  obtain ⟨t, hstep, -⟩ := step_commits hp
  exact ⟨t, hstep⟩

/-- `FS_Q` is `FSR` after the command, for every beat (R66). -/
theorem specStep_fsQ (ev : ScaleEval) (fsr : RangeCode) (b : CommandBeat) :
    (specStep ev fsr b).2.fsQ = (specStep ev fsr b).1 := by
  simp only [specStep]
  split_ifs <;> rfl

/-- Settles O13: the spec's step reads `SCALE_EVAL`, `FSR` and the beat alone. -/
theorem everyBeatYieldsOneResponse : Obligations.EveryBeatYieldsOneResponse := by
  intro ev fsr b
  refine ⟨_, _, specStep_fsQ ev fsr b, ?_⟩
  rintro s rest rfl rfl hp
  exact stepRefinesTheSpecStep s b rest hp

/-- Of the rows of R62 only that of 0x80 reads `RAW` (R147). -/
theorem specStep_ignores_raw (ev : ScaleEval) (fsr : RangeCode) {cmd : CmdByte} (h : cmd ≠ 0x80#8) (raw raw' : RawSample) :
    specStep ev fsr { cmd, raw } = specStep ev fsr { cmd, raw := raw' } := by
  have hn : ¬ cmd.toNat = 0x80 := fun h80 => h (BitVec.toNat_inj.1 h80)
  simp only [specStep, if_neg hn]

/-- Settles O14: by the spec's step for `RAW`, and a failed SETFS gives the same answer for every code. -/
theorem unusedInputsAreIgnored : Obligations.UnusedInputsAreIgnored := by
  constructor
  · intro s cmd raw raw' rest h
    rw [stepRefinesTheSpecStep _ { cmd, raw } rest rfl, stepRefinesTheSpecStep _ { cmd, raw := raw' } rest rfl,
      specStep_ignores_raw _ _ h raw raw']
  · intro s c c'
    obtain ⟨-, hc⟩ := setfsCommitsOnSuccessOnly c s
    obtain ⟨-, hc'⟩ := setfsCommitsOnSuccessOnly c' s
    exact hc.trans hc'.symm

/-! ### Runs -/

/-- A run whose first step answers a fault stops with it. -/
theorem run_succ_of_fault {M : Host.Core} {s : M.State} {r : M.Fault} (k : Nat) (h : M.step s = .fault r) :
    M.run (k + 1) s = .fault r := by
  rw [Host.Core.run, h]

/-- Settles O52, by induction on the number of steps: each takes one event, and none is taken from an empty list. -/
theorem runsOfPresentedEventsAreSafe : Obligations.RunsOfPresentedEventsAreSafe := by
  intro s k
  induction k generalizing s with
  | zero => exact ⟨fun _ => Nat.zero_le _, fun _ => ⟨s, rfl⟩⟩
  | succ k ih =>
    cases hp : s.pending with
    | nil =>
      have hstop : Host.Core.run core (k + 1) s = .fault .noCommandBeat :=
        run_succ_of_fault (M := core) k (step_of_no_event hp)
      simp [SafeRun, hstop]
    | cons e rest =>
      obtain ⟨t, hstep, -, hpending, -⟩ := step_commits hp
      rw [SafeRun, run_succ_of_step (M := core) k hstep, List.length_cons, Nat.succ_le_succ_iff, ← hpending]
      exact ih t

/-- Settles O51, by induction on the pending events: each step is the spec's, and the rest is the run from the state it leaves. -/
theorem runRefinesTheSpecRun : Obligations.RunRefinesTheSpecRun := by
  intro s
  generalize hp : s.pending = es
  induction es generalizing s with
  | nil =>
    obtain ⟨fsr, params, pending, responses⟩ := s
    obtain rfl : pending = [] := hp
    rw [specRun, List.append_nil]
    rfl
  | cons e rest ih =>
    cases e with
    | reset => exact (run_succ_of_step (M := core) _ (step_of_reset hp)).trans (ih _ rfl)
    | beat b =>
      rw [List.length_cons, run_succ_of_step (M := core) _ (stepRefinesTheSpecStep s b rest hp), ih _ rfl, specRun,
        List.append_assoc, List.singleton_append]

/-! ### Driver operations that present nothing -/

/-- Operations that present nothing, and then a successful read, present the one beat of its DECODE (R145, log 14). -/
theorem flatMap_driverEvents_read {calls : List DriverCall} (h : ∀ call ∈ calls, driverEvents call = []) (raw : RawSample) :
    (calls ++ [DriverCall.read (some raw)]).flatMap driverEvents = [.beat (encode (.decode false raw))] := by
  rw [List.flatMap_append, List.flatMap_eq_nil_iff.2 h]
  rfl

/-- Settles O57: the read's beat is the only one pending, and it decodes to a DECODE of its six bytes. -/
theorem powerTransitionsDoNotDisturbTheBlock : Obligations.PowerTransitionsDoNotDisturbTheBlock := by
  refine ⟨fun ok enable mode => by simp [driverEvents], fun s calls raw hcalls hp => ?_⟩
  rw [flatMap_driverEvents_read hcalls raw] at hp
  exact (step_of_decode_ok hp (decodeBeat_encode _)).trans (exec_decode_ok ..)

end Sys2Proof.Machine

/-! PROOFS. The driver's pure field function `apply_field` (R173), bit by bit. -/

namespace Sys2Proof.Machine

/-- The mask of a field has its ones exactly at the bits of the field (R173). -/
theorem getLsbD_fieldMask (f : RegField) {i : Nat} (hi : i < 8) :
    (fieldMask f).getLsbD i = decide (f.offset ≤ i ∧ i < f.offset + f.width) := by
  rw [fieldMask, BitVec.getLsbD_ofNat, Nat.testBit_mul_two_pow, Nat.testBit_two_pow_sub_one, decide_eq_true hi,
    Bool.true_and, ← Bool.decide_and, decide_eq_decide]
  omega

/-- The byte `apply_field` answers, when it answers one, takes the bits of its field from the value, shifted up to the
field, and all others from the old byte (R173). -/
theorem getLsbD_of_applyField {byte r : Byte} {f : RegField} {value : Nat} (h : applyField byte f value = some r)
    {i : Nat} (hi : i < 8) :
    r.getLsbD i = if f.offset ≤ i ∧ i < f.offset + f.width then value.testBit (i - f.offset) else byte.getLsbD i := by
  obtain ⟨-, hr⟩ := Option.ite_none_right_eq_some.1 h
  obtain rfl := Option.some.inj hr
  rw [BitVec.getLsbD_or, BitVec.getLsbD_and, BitVec.getLsbD_and, BitVec.getLsbD_not, getLsbD_fieldMask f hi,
    BitVec.getLsbD_ofNat, Nat.testBit_mul_two_pow]
  split
  case isTrue hin => simp [hin, hi]
  case isFalse hout => simp [hout, hi]

/-- Settles O55: a field and a value that fit are the guard of `apply_field`; the bits of its answer are those of the lemma above. -/
theorem applyFieldIsSurgical : Obligations.ApplyFieldIsSurgical := by
  refine fun byte f value => ⟨fun hfield hvalue => ?_, fun hrefused => if_neg hrefused⟩
  have hr : applyField byte f value = some _ := if_pos ⟨hfield, hvalue⟩
  refine ⟨_, hr, fun i hi => ?_, fun i hi hout => ?_⟩
  · rw [getLsbD_of_applyField hr (by omega), if_pos (by omega), Nat.add_sub_cancel_left]
  · rw [getLsbD_of_applyField hr hi, if_neg (by omega)]

end Sys2Proof.Machine

/-! PROOFS. Errors: which command byte gives which status (R200 to R202, R205), and a failed command leaves no trace (R206, R207). -/

namespace Sys2Proof.Machine

open Sys2Proof.Safety

/-! ### Which bytes give which status -/

/-- The legal bytes whose command succeeds: NOP, and SETFS and DECODE with `XERR` = 0 (R200). -/
def okCmds : List CmdByte := [0x00#8, 0x40#8, 0x50#8, 0x60#8, 0x70#8, 0x80#8]

/-- The legal bytes whose command fails: SETFS and DECODE with `XERR` = 1 (R201). -/
def busErrorCmds : List CmdByte := [0x41#8, 0x51#8, 0x61#8, 0x71#8, 0x81#8]

/-- Every byte has one of three kinds: it succeeds, it fails, or it is not legal (R200). -/
theorem cmd_kinds : ∀ cmd : CmdByte,
    (cmd ∈ okCmds ∧ cmd ∉ busErrorCmds ∧ cmd ∈ legalCmds) ∨ (cmd ∉ okCmds ∧ cmd ∈ busErrorCmds ∧ cmd ∈ legalCmds) ∨
    (cmd ∉ okCmds ∧ cmd ∉ busErrorCmds ∧ cmd ∉ legalCmds) := by
  decide

theorem okCmds_iff_toNat : ∀ cmd : CmdByte,
    cmd ∈ okCmds ↔ cmd.toNat = 0x00 ∨ cmd.toNat ∈ [0x40, 0x50, 0x60, 0x70] ∨ cmd.toNat = 0x80 := by
  decide

theorem busErrorCmds_iff_toNat : ∀ cmd : CmdByte, cmd ∈ busErrorCmds ↔ cmd.toNat ∈ [0x41, 0x51, 0x61, 0x71, 0x81] := by
  decide

theorem legalCmds_iff_toNat : ∀ cmd : CmdByte,
    cmd ∈ legalCmds ↔ cmd.toNat ∈ [0x00, 0x40, 0x50, 0x60, 0x70, 0x80, 0x41, 0x51, 0x61, 0x71, 0x81] := by
  decide

section SpecStatus

variable (ev : ScaleEval) (fsr : RangeCode) {b : CommandBeat}

theorem specStep_status_of_okCmds (h : b.cmd ∈ okCmds) : (specStep ev fsr b).2.status = .ok := by
  rcases (okCmds_iff_toNat _).1 h with hnop | hsetfs | hdecode
  · rw [specStep_nop hnop]
  · rw [specStep_setfs hsetfs]
  · rw [specStep_decode hdecode]

theorem specStep_of_busErrorCmds (h : b.cmd ∈ busErrorCmds) :
    specStep ev fsr b = (fsr, { status := .busError, fsQ := fsr, data := none }) :=
  specStep_fail ((busErrorCmds_iff_toNat _).1 h)

theorem specStep_of_not_legalCmds (h : b.cmd ∉ legalCmds) :
    specStep ev fsr b = (fsr, { status := .illegalCommand, fsQ := fsr, data := none }) :=
  specStep_illegal (mt (legalCmds_iff_toNat _).2 h)

/-- A failed command changes nothing and delivers nothing but its status (R206). -/
theorem specStep_of_status_ne_ok (h : (specStep ev fsr b).2.status ≠ .ok) :
    (specStep ev fsr b).1 = fsr ∧ (specStep ev fsr b).2.data = none := by
  rcases cmd_kinds b.cmd with ⟨hok, -, -⟩ | ⟨-, hfail, -⟩ | ⟨-, -, hillegal⟩
  · exact absurd (specStep_status_of_okCmds ev fsr hok) h
  · simp [specStep_of_busErrorCmds ev fsr hfail]
  · simp [specStep_of_not_legalCmds ev fsr hillegal]

end SpecStatus

/-- Settles O16: each byte is of one kind, and each kind has its own status. -/
theorem statusOfEveryCommandByte : Obligations.StatusOfEveryCommandByte := by
  refine ⟨⟨rfl, rfl, rfl, fun st => by cases st <;> decide⟩, fun s t b rest r h hstep hr => ?_⟩
  obtain rfl := response_of_step h hstep hr
  rcases cmd_kinds b.cmd with ⟨hok, hfail, hlegal⟩ | ⟨hok, hfail, hlegal⟩ | ⟨hok, hfail, hlegal⟩
  · rw [specStep_status_of_okCmds _ _ hok]
    exact ⟨iff_of_true rfl hok, iff_of_false nofun hfail, iff_of_false nofun (not_not_intro hlegal)⟩
  · rw [specStep_of_busErrorCmds _ _ hfail]
    exact ⟨iff_of_false nofun hok, iff_of_true rfl hfail, iff_of_false nofun (not_not_intro hlegal)⟩
  · rw [specStep_of_not_legalCmds _ _ hlegal]
    exact ⟨iff_of_false nofun hok, iff_of_false nofun hfail, iff_of_true rfl hlegal⟩

/-! ### A failure leaves no trace -/

/-- Settles O15: the failed beat and the NOP both leave `FSR` alone, so the two steps differ in their response only. -/
theorem failedCommandActsAsNop : Obligations.FailedCommandActsAsNop := by
  intro s t b rest r h hstep hr hfailed
  obtain rfl := response_of_step h hstep hr
  obtain ⟨hfsr, hdata⟩ := specStep_of_status_ne_ok _ _ hfailed
  have hnop := step_of_decode_ok (s := { s with pending := .beat (encode .nop) :: rest }) rfl (decodeBeat_encode .nop)
  refine ⟨_, hnop.trans (nopReportsFsr _), ?_, hdata, (specStep_fsQ ..).trans hfsr⟩
  have ht := Host.Outcome.next.inj (hstep.symm.trans (stepRefinesTheSpecStep s b rest h))
  rw [ht, hfsr]

end Sys2Proof.Machine

/-! PROOFS. Reset (R230), and the host's bookkeeping of the device's range along a run of driver operations (R231 to R233). -/

namespace Sys2Proof.Machine

open Sys2Proof.Safety

/-- Settles O1: both parts are the reset of the block. -/
theorem resetSetsFsrToItsParameter : Obligations.ResetSetsFsrToItsParameter :=
  ⟨fun _ => rfl, fun _ _ h => step_of_reset h⟩

/-! ### What the events of a driver operation commit -/

/-- The commits of two lists of events, one after the other. -/
theorem latestCommit_append (p : Params) (c : RangeCode) (es es' : List HostEvent) :
    latestCommit p c (es ++ es') = latestCommit p (latestCommit p c es) es' :=
  List.foldl_append

/-- A successful SETFS commits its range code (R141). -/
theorem latestCommit_setfs (p : Params) (fsr c : RangeCode) :
    latestCommit p fsr [.beat (encode (.setfs c false))] = c := by
  have hcmd : (encode (.setfs c false)).cmd.toNat ∈ [0x40, 0x50, 0x60, 0x70] ∧
      BitVec.ofNat Config.fsBits ((encode (.setfs c false)).cmd.toNat / 16 - 4) = c := by
    revert c
    decide
  exact (if_pos hcmd.1).trans hcmd.2

/-- A DECODE commits nothing (R142). -/
theorem latestCommit_decode (p : Params) (fsr : RangeCode) (xerr : Bool) (raw : RawSample) :
    latestCommit p fsr [.beat (encode (.decode xerr raw))] = fsr := by
  cases xerr <;> rfl

/-- One operation keeps the host's knowledge true: what it makes known it commits, and what it leaves known it leaves in `FSR`
(R231 (2), R232, R233). -/
theorem latestCommit_of_trackRange (p : Params) {known : Option RangeCode} {fsr : RangeCode} (hknown : ∀ c ∈ known, fsr = c)
    (call : DriverCall) : ∀ c ∈ trackRange known call, latestCommit p fsr (driverEvents call) = c := by
  cases call with
  | create => nofun
  | rebootMemoryContent ok => nofun
  | configureFullScale c' ok =>
    cases ok with
    | false => nofun
    | true =>
      rintro _ ⟨⟩
      exact latestCommit_setfs p fsr c'
  | read sample =>
    intro c hc
    cases sample with
    | none => exact (latestCommit_decode ..).trans (hknown c hc)
    | some raw => exact (latestCommit_decode ..).trans (hknown c hc)
  | powerOn ok => exact hknown
  | powerOff ok => exact hknown
  | configureDataRates mode ok => exact hknown
  | toggleFifo enable ok => exact hknown
  | configureFifoMode ok => exact hknown

/-- What is known before a list of operations and true stays true along them, by induction on the operations. -/
theorem latestCommit_of_foldl_trackRange (p : Params) (calls : List DriverCall) {known : Option RangeCode} {fsr : RangeCode}
    (hknown : ∀ c ∈ known, fsr = c) :
    ∀ c ∈ calls.foldl trackRange known, latestCommit p fsr (calls.flatMap driverEvents) = c := by
  induction calls generalizing known fsr with
  | nil => exact hknown
  | cons call calls ih =>
    rw [List.flatMap_cons, latestCommit_append]
    exact ih (latestCommit_of_trackRange p hknown call)

/-- Settles O58: the run leaves in `FSR` what the operations' events commit, and at first nothing is known. -/
theorem knownDeviceRangeIsTheStoredSelection : Obligations.KnownDeviceRangeIsTheStoredSelection := by
  intro calls s t c hp hrun hc
  obtain ⟨u, hu, -, hfsr⟩ := fsrIsTheLatestCommit s s.pending.length le_rfl
  obtain rfl : t = u := Host.Outcome.next.inj (hrun.symm.trans hu)
  rw [hfsr, List.take_length, hp]
  exact latestCommit_of_foldl_trackRange s.params calls (known := none) nofun c hc

end Sys2Proof.Machine
